-- ==== Sys2Proof/Word.lean ====
section
/-! DEFINITION. The machine's word, byte and register-index types (00_scope.md R5, 10_state.md R11, R15). -/

namespace Sys2Proof

/-- A word of `XLEN` = 32 bits (R5): a register's contents, an instruction word, an address, the pc. -/
abbrev Word := BitVec 32

/-- A byte of memory, 8 bits (20_memory.md R40). -/
abbrev Byte := BitVec 8

/-- A register index. It is a 5-bit field (R15), so an index outside 0 to 31 cannot be written down (U3). -/
abbrev RegIdx := BitVec 5

end Sys2Proof
end

