-- ==== Sys2Proof/Config.lean ====
section
/-! DEFINITION. What one build of the hardware fixes: the two parameters of 00_scope.md R5.

The spec leaves no value of an instruction open (93_implementation_defined.md, end of Part A), so this file declares no
free value. -/

namespace Sys2Proof

/-- The parameters that a model takes as configuration fields (R5, D1, D16). Both are "fixed before reset and do not
change afterwards" (70_reset_and_hazards.md R190). -/
structure Config where
  /-- `MEM_SIZE`, the memory capacity in bytes. -/
  memSize : Nat
  /-- `BRANCH_OPCODE`, the opcode value that selects the B format. -/
  branchOpcode : BitVec 7
deriving DecidableEq, Repr

/-- The opcode values that R5 and R87 forbid to `BRANCH_OPCODE`: those of the other formats and the sentinel's. -/
def Config.takenOpcodes : List (BitVec 7) := [0x00#7, 0x03#7, 0x13#7, 0x23#7, 0x33#7, 0x37#7]

/-- The values R5 admits: `MEM_SIZE` is a multiple of 4 from 4 to 2^32, `BRANCH_OPCODE` collides with no other opcode. -/
abbrev Config.valid (c : Config) : Prop :=
  c.memSize % 4 = 0 ∧ 4 ≤ c.memSize ∧ c.memSize ≤ 2 ^ 32 ∧ c.branchOpcode ∉ Config.takenOpcodes

/-- The defaults of R5: 64 KiB of memory, and 0x63 for the B format.
UNVERIFIED, unsafe: DOC00 gives no number for the branch opcode (D1, log 2). -/
def Config.default : Config where
  memSize := 65536
  branchOpcode := 0x63#7

end Sys2Proof
end

