-- ==== Sys2Proof/Syntax.lean ====
section
/-! DEFINITION. The instructions, one constructor per row of spec/opcode_table.json, and the decoded record of
40_decoder.md R101. -/

namespace Sys2Proof

/-- One constructor per row of the opcode table (30_encoding.md R80, R91). The fields are those of the row's format as
they stand in the word, before any extension (R72 to R76; log 29). -/
inductive Instr where
  /-- ADD, R-type (R111). -/
  | add (rd rs1 rs2 : RegIdx)
  /-- SUB, R-type (R112). -/
  | sub (rd rs1 rs2 : RegIdx)
  /-- ADDI, I-type (R113). -/
  | addi (rd rs1 : RegIdx) (imm : BitVec 12)
  /-- LW, I-type (R120). -/
  | lw (rd rs1 : RegIdx) (imm : BitVec 12)
  /-- SW, S-type (R121): base `rs1`, value `rs2`. -/
  | sw (rs1 rs2 : RegIdx) (imm : BitVec 12)
  /-- LUI, U-type (R114): `imm20` is `w[31:12]`. -/
  | lui (rd : RegIdx) (imm20 : BitVec 20)
  /-- BEQ, B-type (R130): `off` is the 13-bit byte offset, bit 0 included (R85). -/
  | beq (rs1 rs2 : RegIdx) (off : BitVec 13)
  /-- HALT, the sentinel row (R91, R146): no instruction of the decoder, recognised by the run mode only; `ignored` is
  `w[31:7]` (log 5). -/
  | halt (ignored : BitVec 25)
deriving DecidableEq, Repr

/-- Whether an instruction is the halt sentinel, the one row that "a decoder written from this table must omit"
(opcode_table.json, row HALT; R105). -/
def Instr.isSentinel : Instr → Bool
  | .add _ _ _ => false
  | .sub _ _ _ => false
  | .addi _ _ _ => false
  | .lw _ _ _ => false
  | .sw _ _ _ => false
  | .lui _ _ => false
  | .beq _ _ _ => false
  | .halt _ => true

/-- The row's mnemonic in opcode_table.json. -/
def Instr.mnemonic : Instr → String
  | .add _ _ _ => "ADD"
  | .sub _ _ _ => "SUB"
  | .addi _ _ _ => "ADDI"
  | .lw _ _ _ => "LW"
  | .sw _ _ _ => "SW"
  | .lui _ _ => "LUI"
  | .beq _ _ _ => "BEQ"
  | .halt _ => "HALT"

/-- The operation identifiers of the R variant (R101). -/
inductive ROp where
  | add
  | sub
deriving DecidableEq, Repr

/-- The operation identifiers of the I variant (R101). -/
inductive IOp where
  | addi
  | lw
deriving DecidableEq, Repr

/-- The Decoded Instruction of R101: "a sum type over the five encodings, each carrying only the fields its format
defines". Immediates are extended to 32 bits; `funct3` and `funct7` are "carried for tracing". The S, U and B variants
have one operation each (SW, LUI, BEQ). -/
inductive DecodedInstruction where
  | rType (op : ROp) (rd rs1 rs2 : RegIdx) (funct3 : BitVec 3) (funct7 : BitVec 7)
  | iType (op : IOp) (rd rs1 : RegIdx) (imm : Word) (funct3 : BitVec 3)
  | sType (rs1 rs2 : RegIdx) (imm : Word) (funct3 : BitVec 3)
  | uType (rd : RegIdx) (imm : Word)
  | bType (rs1 rs2 : RegIdx) (imm : Word) (funct3 : BitVec 3)
deriving DecidableEq, Repr

end Sys2Proof
end

