-- ==== Sys2Proof/WellFormed.lean ====
section
/-! DEFINITION. Which terms of `Instr` an encoding can carry. -/

namespace Sys2Proof

/-- Every value of a register or immediate field is legal (30_encoding.md R77). The one field a word cannot carry in
full is BEQ's offset, whose low bit is "always 0" (R85; R95: the operand "must be even"). -/
def Instr.wellFormed : Instr → Bool
  | .add _ _ _ => true
  | .sub _ _ _ => true
  | .addi _ _ _ => true
  | .lw _ _ _ => true
  | .sw _ _ _ => true
  | .lui _ _ => true
  | .beq _ _ off => !off[0]
  | .halt _ => true

end Sys2Proof
end

