-- ==== Sys2Proof/Decode.lean ====
section
/-! DEFINITION. The instruction decoder (40_decoder.md), the run mode's recogniser of the halt sentinel (30_encoding.md
R91), the encoder (R95) and the opcode map as mask and match rows (R80). -/

namespace Sys2Proof

/-- The decoder's one error (40_decoder.md R103), "carrying the raw word for diagnostics". -/
inductive DecodeError where
  /-- The word matches none of the seven rows (30_encoding.md R90). Safe: the spec names this error. -/
  | unknownInstruction (word : Word)
deriving DecidableEq, Repr

/-! ## Fields of the word (30_encoding.md R71 to R76) -/

/-- `w[6:0]` (R71). -/
def opcodeField (w : Word) : BitVec 7 := w.extractLsb' 0 7
/-- `w[11:7]`. -/
def rdField (w : Word) : RegIdx := w.extractLsb' 7 5
/-- `w[14:12]`. -/
def funct3Field (w : Word) : BitVec 3 := w.extractLsb' 12 3
/-- `w[19:15]`. -/
def rs1Field (w : Word) : RegIdx := w.extractLsb' 15 5
/-- `w[24:20]`. -/
def rs2Field (w : Word) : RegIdx := w.extractLsb' 20 5
/-- `w[31:25]`. -/
def funct7Field (w : Word) : BitVec 7 := w.extractLsb' 25 7

/-- `w[31:20]`, the I-immediate's 12 bits (R73, R82). -/
def immIField (w : Word) : BitVec 12 := w.extractLsb' 20 12
/-- `w[31:25] || w[11:7]`, the S-immediate's 12 bits (R74, R83). -/
def immSField (w : Word) : BitVec 12 := w.extractLsb' 25 7 ++ w.extractLsb' 7 5
/-- `w[31:12]`, the U-immediate's 20 bits (R75, R84). -/
def immUField (w : Word) : BitVec 20 := w.extractLsb' 12 20
/-- `w[31] || w[7] || w[30:25] || w[11:8] || 0`, the B-immediate's 13 bits (R76, R85).
UNVERIFIED, unsafe: DOC00 does not name the destination positions (N5, log 25). -/
def immBField (w : Word) : BitVec 13 :=
  w.extractLsb' 31 1 ++ w.extractLsb' 7 1 ++ w.extractLsb' 25 6 ++ w.extractLsb' 8 4 ++ 0#1
/-- `w[31:7]`, the bits of the halt sentinel that nothing examines (R91). -/
def ignoredField (w : Word) : BitVec 25 := w.extractLsb' 7 25

/-! ## Decoding -/

/-- The decoder's answer to a word it does not recognise (R90, R103). -/
def unknown (w : Word) : Except DecodeError Instr := .error (.unknownInstruction w)

/-- `decode(word)` of 40_decoder.md R102: opcode first, then the function codes. `bop` is `BRANCH_OPCODE`.
The `funct3` values of LW and BEQ and the strictness of the check are the spec's decisions D2 and D3 (log 3, log 4,
UNVERIFIED). Opcode 0x00 is unknown here (R105). -/
def decode (bop : BitVec 7) (w : Word) : Except DecodeError Instr :=
  if opcodeField w = 0x33#7 then
    if funct3Field w = 0#3 ∧ funct7Field w = 0x00#7 then .ok (.add (rdField w) (rs1Field w) (rs2Field w))
    else if funct3Field w = 0#3 ∧ funct7Field w = 0x20#7 then .ok (.sub (rdField w) (rs1Field w) (rs2Field w))
    else unknown w
  else if opcodeField w = 0x13#7 then
    if funct3Field w = 0#3 then .ok (.addi (rdField w) (rs1Field w) (immIField w)) else unknown w
  else if opcodeField w = 0x03#7 then
    if funct3Field w = 2#3 then .ok (.lw (rdField w) (rs1Field w) (immIField w)) else unknown w
  else if opcodeField w = 0x23#7 then
    if funct3Field w = 2#3 then .ok (.sw (rs1Field w) (rs2Field w) (immSField w)) else unknown w
  else if opcodeField w = 0x37#7 then
    .ok (.lui (rdField w) (immUField w))
  else if opcodeField w = bop then
    if funct3Field w = 0#3 then .ok (.beq (rs1Field w) (rs2Field w) (immBField w)) else unknown w
  else unknown w

/-- The halt sentinel's test: "only the opcode field is examined" (30_encoding.md R91, D4; log 5). -/
def isSentinelWord (w : Word) : Bool := opcodeField w == 0x00#7

/-- How the run mode reads a fetched word (44_sequencer.md R145, R146): the sentinel test first, then the decoder. -/
def recognise (bop : BitVec 7) (w : Word) : Except DecodeError Instr :=
  if isSentinelWord w then .ok (.halt (ignoredField w)) else decode bop w

/-- The word made of four bytes, the first from the lowest address (20_memory.md R42). -/
def wordOfBytes (b0 b1 b2 b3 : Byte) : Word := b3 ++ b2 ++ b1 ++ b0

/-- Byte `i` of a word in memory order, `i = 0` at the lowest address (R42). -/
def byteOfWord (w : Word) (i : Nat) : Byte := w.extractLsb' (8 * i) 8

/-- Decoding four bytes as memory holds them (R43, R70). Total: every four bytes are one word. -/
def decodeBytes (bop : BitVec 7) (b0 b1 b2 b3 : Byte) : Except DecodeError Instr :=
  decode bop (wordOfBytes b0 b1 b2 b3)

/-- The instruction the decoder reads from a word numbered as spec/opcode_table.json numbers it, under the default
parameters. The words of row HALT give `none`: "decode() returns UnknownInstruction(word) for it" (the row's note). -/
def decodeTableWord (nbits w : Nat) : Option Instr :=
  let v : Word := BitVec.ofNat 32 (w % 2 ^ nbits)
  match decodeBytes Config.default.branchOpcode (byteOfWord v 0) (byteOfWord v 1) (byteOfWord v 2) (byteOfWord v 3) with
  | .ok i => some i
  | .error _ => none

/-! ## Encoding (30_encoding.md R95) -/

/-- R-type word (R72). -/
def encodeR (funct7 : BitVec 7) (rs2 rs1 : RegIdx) (funct3 : BitVec 3) (rd : RegIdx) (opcode : BitVec 7) : Word :=
  funct7 ++ rs2 ++ rs1 ++ funct3 ++ rd ++ opcode

/-- I-type word (R73). -/
def encodeI (imm : BitVec 12) (rs1 : RegIdx) (funct3 : BitVec 3) (rd : RegIdx) (opcode : BitVec 7) : Word :=
  imm ++ rs1 ++ funct3 ++ rd ++ opcode

/-- S-type word (R74). -/
def encodeS (imm : BitVec 12) (rs2 rs1 : RegIdx) (funct3 : BitVec 3) (opcode : BitVec 7) : Word :=
  imm.extractLsb' 5 7 ++ rs2 ++ rs1 ++ funct3 ++ imm.extractLsb' 0 5 ++ opcode

/-- U-type word (R75). -/
def encodeU (imm20 : BitVec 20) (rd : RegIdx) (opcode : BitVec 7) : Word :=
  imm20 ++ rd ++ opcode

/-- B-type word (R76). Bit 0 of the offset has no place in the word. -/
def encodeB (off : BitVec 13) (rs2 rs1 : RegIdx) (funct3 : BitVec 3) (opcode : BitVec 7) : Word :=
  off.extractLsb' 12 1 ++ off.extractLsb' 5 6 ++ rs2 ++ rs1 ++ funct3 ++ off.extractLsb' 1 4 ++ off.extractLsb' 11 1 ++
    opcode

/-- The word of an instruction (R95), and of the sentinel with the given ignored bits (R91). -/
def encode (bop : BitVec 7) : Instr → Word
  | .add rd rs1 rs2 => encodeR 0x00#7 rs2 rs1 0#3 rd 0x33#7
  | .sub rd rs1 rs2 => encodeR 0x20#7 rs2 rs1 0#3 rd 0x33#7
  | .addi rd rs1 imm => encodeI imm rs1 0#3 rd 0x13#7
  | .lw rd rs1 imm => encodeI imm rs1 2#3 rd 0x03#7
  | .sw rs1 rs2 imm => encodeS imm rs2 rs1 2#3 0x23#7
  | .lui rd imm20 => encodeU imm20 rd 0x37#7
  | .beq rs1 rs2 off => encodeB off rs2 rs1 0#3 bop
  | .halt ignored => ignored ++ 0x00#7

/-! ## The opcode map (30_encoding.md R80) -/

/-- One row of the map: the word `w` is the row's instruction exactly when `w &&& mask = bits`. -/
structure OpcodeRow where
  mnemonic : String
  mask : Word
  bits : Word
deriving DecidableEq, Repr

/-- The seven rows of R80; "for another BRANCH_OPCODE v: match = v, mask unchanged" (opcode_table.json, row BEQ). -/
def opcodeMap (bop : BitVec 7) : List OpcodeRow :=
  [⟨"ADD", 0xFE00707F#32, 0x00000033#32⟩,
   ⟨"SUB", 0xFE00707F#32, 0x40000033#32⟩,
   ⟨"ADDI", 0x0000707F#32, 0x00000013#32⟩,
   ⟨"LW", 0x0000707F#32, 0x00002003#32⟩,
   ⟨"SW", 0x0000707F#32, 0x00002023#32⟩,
   ⟨"LUI", 0x0000007F#32, 0x00000037#32⟩,
   ⟨"BEQ", 0x0000707F#32, bop.setWidth 32⟩]

/-- The sentinel's row of opcode_table.json, apart from the seven (R91). -/
def sentinelRow : OpcodeRow := ⟨"HALT", 0x0000007F#32, 0x00000000#32⟩

/-- Whether a word matches a row (R80). -/
def OpcodeRow.matchesWord (r : OpcodeRow) (w : Word) : Bool := (w &&& r.mask) == r.bits

end Sys2Proof
end

