-- ==== Sys2Proof/Machine/State.lean ====
section
/-! DEFINITION. The machine's state (10_state.md R10), its reset (70_reset_and_hazards.md R191), and the reasons a step
or a host command can stop (60_exceptions.md R162 to R166). -/

namespace Sys2Proof.Machine

/-- Memory as plain data: the listed bytes, in the canonical form `Memory.wf` of Machine/Ops.lean. -/
abbrev Memory := List Host.Cell

/-- How the host's register access names a register, "`name_or_index`" (10_state.md R26; log 19). -/
inductive RegSelector where
  | name (n : String)
  | index (i : Nat)
deriving DecidableEq, Repr

/-- The error kinds: "These five are all there are" (60_exceptions.md, before R162). An error changes nothing (R161),
which is why `Host.Outcome.fault` carries no state (log 26). -/
inductive Fault where
  /-- Raised by a step's decode phase with the whole word (R162). Safe: the spec names this error. -/
  | unknownInstruction (word : Word)
  /-- Raised by LW and SW, by the host's word access, and by a fetch at a `pc` in bounds but not a multiple of 4 (R163).
  Safe: the spec names this error; for the fetch it is decision D9, which errs towards stopping (log 10). -/
  | misalignedAccess (addr : Word)
  /-- Raised by LW and SW, by the host's word access and by `load_image` (R164). Safe: the spec names this error. -/
  | outOfBounds (addr : Word)
  /-- Raised by a step's fetch phase (R165). Safe: the spec names this error. -/
  | fetchOutOfBounds (pc : Word)
  /-- Raised by the host's register access only, "never by a step" (R166). Safe: the spec names this error. -/
  | registerNotFound (sel : RegSelector)
deriving DecidableEq, Repr

/-- The reasons for which a step has no meaning. Every instruction of the table has one, so no step raises any
(log 28). -/
inductive Refusal where
  /-- Raised by an arm of `exec` whose instruction has no meaning yet; no arm does. Safe. -/
  | notModelled (mnemonic : String)
deriving DecidableEq, Repr

/-- The triple of R10 (registers, memory, pc) beside the parameters of R5 that one build fixes (log 1). -/
structure State where
  /-- `x[0]` to `x[31]` (R11). Read and written only through `readReg` and `writeReg`; slot 0 is never written. -/
  regs : Vector Word 32
  /-- `M[0 .. MEM_SIZE-1]` (R23): the bytes that differ from `unlistedByte`. -/
  mem : Memory
  /-- The program counter (R17). -/
  pc : Word
  /-- `MEM_SIZE` and `BRANCH_OPCODE`; no operation changes them (R190). -/
  cfg : Config
deriving DecidableEq, Repr

/-- Reset under given parameters (R190, R191): `pc`, every register and every byte of memory are 0.
UNVERIFIED, unsafe: the values are the spec's decisions D6, D7, D8 (log 7, log 8, log 9). -/
def State.resetWith (c : Config) : State where
  regs := Vector.replicate 32 0#32
  mem := []
  pc := 0#32
  cfg := c

/-- The machine right after reset, under the default parameters of R5. -/
def State.reset : State := State.resetWith Config.default

end Sys2Proof.Machine
end

