-- ==== Sys2Proof/Machine/Ops.lean ====
section
/-! DEFINITION. The named operations over registers, memory and the pc, raising an error, and the ways an instruction
commits (10_state.md, 20_memory.md, 60_exceptions.md). -/

namespace Sys2Proof.Machine

/-! ## Registers -/

/-- `x[r]` (10_state.md R12): register 0 "always reads as zero". -/
def State.readReg (s : State) (r : RegIdx) : Word :=
  if r = 0#5 then 0#32 else s.regs[r.toNat]'r.isLt

/-- `x[r] <- v` (R13): a write to register 0 is "silently discarded". -/
def State.writeReg (s : State) (r : RegIdx) (v : Word) : State :=
  if r = 0#5 then s else { s with regs := s.regs.set r.toNat v r.isLt }

/-! ## The program counter -/

/-- `pc <- t`. -/
def State.setPc (s : State) (t : Word) : State := { s with pc := t }

/-- The address of the next sequential instruction, `pc + 4` modulo 2^32 (10_state.md R18, D12; log 13). -/
def State.pcNext (s : State) : Word := s.pc + 4#32

/-! ## Memory bytes -/

/-- What an address that memory does not list reads as: the reset value of every byte (10_state.md R30).
UNVERIFIED, unsafe: decision D8 of the spec (log 9). -/
def unlistedByte : Byte := 0x00#8

/-- The canonical form: addresses strictly rising, no entry equal to what an unlisted address reads as. -/
abbrev Memory.wf (m : Memory) : Prop :=
  m.Pairwise (fun c d => c.1 < d.1) ∧ ∀ c ∈ m, c.2 ≠ unlistedByte

/-- `M[a]`. -/
def Memory.readByte : Memory → Nat → Byte
  | [], _ => unlistedByte
  | (k, b) :: m, a => if k = a then b else Memory.readByte m a

/-- The memory with one entry more in front, which writing `unlistedByte` does not need. -/
def Memory.consByte (a : Nat) (v : Byte) (m : Memory) : Memory :=
  if v = unlistedByte then m else (a, v) :: m

/-- `M[a] <- v`, kept in the canonical form. -/
def Memory.writeByte : Memory → Nat → Byte → Memory
  | [], a, v => Memory.consByte a v []
  | (k, b) :: m, a, v =>
    if a < k then Memory.consByte a v ((k, b) :: m)
    else if a = k then Memory.consByte a v m
    else (k, b) :: Memory.writeByte m a v

/-- A run of bytes written from address `a` upwards. -/
def Memory.writeBytes : Memory → Nat → List Byte → Memory
  | m, _, [] => m
  | m, a, b :: bs => Memory.writeBytes (Memory.writeByte m a b) (a + 1) bs

/-! ## Memory words: the byte order is decided here, once (20_memory.md R42) -/

/-- The little-endian word at `a`. -/
def Memory.readWord (m : Memory) (a : Nat) : Word :=
  wordOfBytes (Memory.readByte m a) (Memory.readByte m (a + 1)) (Memory.readByte m (a + 2)) (Memory.readByte m (a + 3))

/-- The four bytes of a word, least significant first. -/
def bytesOfWord (v : Word) : List Byte := [byteOfWord v 0, byteOfWord v 1, byteOfWord v 2, byteOfWord v 3]

/-- The little-endian word `v` stored at `a`. -/
def Memory.writeWord (m : Memory) (a : Nat) (v : Word) : Memory := Memory.writeBytes m a (bytesOfWord v)

/-- Replaces the memory and nothing else. -/
def State.setMem (s : State) (m : Memory) : State := { s with mem := m }

/-! ## Checked word access -/

/-- A word address is aligned (20_memory.md R44). -/
abbrev wordAligned (addr : Word) : Prop := addr.toNat % 4 = 0

/-- A word at `addr` lies inside memory; compared on unbounded integers (R45, D11). -/
abbrev wordInBounds (c : Config) (addr : Word) : Prop := addr.toNat + 4 ≤ c.memSize

/-- The two checks of a data access, alignment before bounds (R48, D10; log 11). -/
def checkAccess (c : Config) (addr : Word) : Except Fault Unit :=
  if wordAligned addr then
    if wordInBounds c addr then .ok () else .error (.outOfBounds addr)
  else .error (.misalignedAccess addr)

/-- `MemRead(addr, 4)` (R46). -/
def State.memRead (s : State) (addr : Word) : Except Fault Word :=
  match checkAccess s.cfg addr with
  | .ok _ => .ok (Memory.readWord s.mem addr.toNat)
  | .error e => .error e

/-- `MemWrite(addr, 4, v)` (R47): "On either failure no byte is written." -/
def State.memWrite (s : State) (addr : Word) (v : Word) : Except Fault State :=
  match checkAccess s.cfg addr with
  | .ok _ => .ok (s.setMem (Memory.writeWord s.mem addr.toNat v))
  | .error e => .error e

/-! ## Errors, which stand where other machines have exceptions (60_exceptions.md) -/

/-- `raise <Kind>(info)`: the one way an instruction or a fetch stops. Taking an exception does not exist here: the
hardware "saves nothing, switches no mode, masks nothing, uses no stack and redirects control nowhere" (R172), and there
is no return from one (R173). The state the host sees is the one before the step (R161). -/
def raise (e : Fault) : Host.Outcome State Fault Refusal := .fault e

/-- The decoder's error as an error of the step (R103, R162). -/
def faultOfDecodeError : DecodeError → Fault
  | .unknownInstruction w => .unknownInstruction w

/-! ## How an instruction commits (44_sequencer.md R143): at most one register or one memory word, and the pc -/

/-- Commits a register write and `pc + 4`: ADD, SUB, ADDI, LUI, LW (10_state.md R18). -/
def commitRegister (s : State) (rd : RegIdx) (v : Word) : Host.Outcome State Fault Refusal :=
  .next ((s.writeReg rd v).setPc s.pcNext)

/-- Commits a word store and `pc + 4`, or raises the store's error: SW. -/
def commitStore (s : State) (addr v : Word) : Host.Outcome State Fault Refusal :=
  match s.memWrite addr v with
  | .ok t => .next (t.setPc s.pcNext)
  | .error e => raise e

/-- Commits a new pc and nothing else: BEQ. -/
def commitPc (s : State) (t : Word) : Host.Outcome State Fault Refusal := .next (s.setPc t)

end Sys2Proof.Machine
end

