-- ==== Sys2Proof/Machine/Operands.lean ====
section
/-! DEFINITION. The operand forms: immediates extended to 32 bits (30_encoding.md R82 to R85), the one addressing mode
(20_memory.md R56), the branch target (43_branch.md R130), the registers each instruction names (10_state.md R16), and
the decoded record (40_decoder.md R101). -/

namespace Sys2Proof.Machine

/-- `imm_i = sext_12` (R82). -/
def immI (imm : BitVec 12) : Word := imm.signExtend 32

/-- `imm_s = sext_12` (R83). -/
def immS (imm : BitVec 12) : Word := imm.signExtend 32

/-- `imm_u = imm20 || 0^12` (R84): the shift happens exactly once (conflict C3). -/
def immU (imm20 : BitVec 20) : Word := imm20 ++ 0#12

/-- `imm_b = sext_13` (R85). -/
def immB (off : BitVec 13) : Word := off.signExtend 32

/-- The address of LW: `(x[rs1] + imm_i) mod 2^32` (R56, D11; log 12). -/
def loadAddress (s : State) (rs1 : RegIdx) (imm : BitVec 12) : Word := s.readReg rs1 + immI imm

/-- The address of SW: `(x[rs1] + imm_s) mod 2^32` (R56, D11; log 12). -/
def storeAddress (s : State) (rs1 : RegIdx) (imm : BitVec 12) : Word := s.readReg rs1 + immS imm

/-- The target of BEQ: `(pc + imm_b) mod 2^32`, relative to the BEQ itself (R130, D12; log 13). -/
def branchTarget (s : State) (off : BitVec 13) : Word := s.pc + immB off

/-- The registers an instruction reads, each once, in the order of the fields (R16). The sentinel reads none (R146). -/
def regsRead : Instr → List RegIdx
  | .add _ rs1 rs2 => [rs1, rs2].dedup
  | .sub _ rs1 rs2 => [rs1, rs2].dedup
  | .addi _ rs1 _ => [rs1]
  | .lw _ rs1 _ => [rs1]
  | .sw rs1 rs2 _ => [rs1, rs2].dedup
  | .lui _ _ => []
  | .beq rs1 rs2 _ => [rs1, rs2].dedup
  | .halt _ => []

/-- The `rd` field of an instruction that has one (R16). -/
def regDest : Instr → Option RegIdx
  | .add rd _ _ => some rd
  | .sub rd _ _ => some rd
  | .addi rd _ _ => some rd
  | .lw rd _ _ => some rd
  | .sw _ _ _ => none
  | .lui rd _ => some rd
  | .beq _ _ _ => none
  | .halt _ => none

/-- The decoded record of R101. The sentinel has none: it is no instruction of the decoder (R105). -/
def decodedRecord : Instr → Option DecodedInstruction
  | .add rd rs1 rs2 => some (.rType .add rd rs1 rs2 0#3 0x00#7)
  | .sub rd rs1 rs2 => some (.rType .sub rd rs1 rs2 0#3 0x20#7)
  | .addi rd rs1 imm => some (.iType .addi rd rs1 (immI imm) 0#3)
  | .lw rd rs1 imm => some (.iType .lw rd rs1 (immI imm) 2#3)
  | .sw rs1 rs2 imm => some (.sType rs1 rs2 (immS imm) 2#3)
  | .lui rd imm20 => some (.uType rd (immU imm20))
  | .beq rs1 rs2 off => some (.bType rs1 rs2 (immB off) 0#3)
  | .halt _ => none

end Sys2Proof.Machine
end

