-- ==== Sys2Proof/Machine/Flags.lean ====
section
/-! DEFINITION. Conditions. "There are no flags, condition codes or predicate registers" (10_state.md R20), so no flag is
computed anywhere: ADD, SUB and ADDI record no carry or overflow (41_alu.md R110). The one condition the hardware
evaluates is BEQ's comparison. -/

namespace Sys2Proof.Machine

/-- BEQ's condition (43_branch.md R130): "equality of the two 32-bit words, all 32 bits". -/
def branchTaken (a b : Word) : Bool := a == b

end Sys2Proof.Machine
end

