-- ==== Sys2Proof/Machine/Alu.lean ====
section
/-! DEFINITION. ADD, SUB, ADDI and LUI (41_alu.md). All arithmetic is modulo 2^32 (R110). Sources are read from the state
before the write (10_state.md R16). -/

namespace Sys2Proof.Machine

/-- ADD (R111): `x[rd] <- x[rs1] + x[rs2]`. -/
def execAdd (rd rs1 rs2 : RegIdx) (s : State) : Host.Outcome State Fault Refusal :=
  commitRegister s rd (s.readReg rs1 + s.readReg rs2)

/-- SUB (R112): `x[rd] <- x[rs1] - x[rs2]`, "minuend rs1, subtrahend rs2". -/
def execSub (rd rs1 rs2 : RegIdx) (s : State) : Host.Outcome State Fault Refusal :=
  commitRegister s rd (s.readReg rs1 - s.readReg rs2)

/-- ADDI (R113): `x[rd] <- x[rs1] + imm_i`. -/
def execAddi (rd rs1 : RegIdx) (imm : BitVec 12) (s : State) : Host.Outcome State Fault Refusal :=
  commitRegister s rd (s.readReg rs1 + immI imm)

/-- LUI (R114): `x[rd] <- w[31:12] || 0^12`. -/
def execLui (rd : RegIdx) (imm20 : BitVec 20) (s : State) : Host.Outcome State Fault Refusal :=
  commitRegister s rd (immU imm20)

end Sys2Proof.Machine
end

