-- ==== Sys2Proof/Machine/Branch.lean ====
section
/-! DEFINITION. BEQ (43_branch.md). -/

namespace Sys2Proof.Machine

/-- BEQ (R130): "The target is not checked when the branch executes; `pc_next` is committed whatever it is." -/
def execBeq (rs1 rs2 : RegIdx) (off : BitVec 13) (s : State) : Host.Outcome State Fault Refusal :=
  commitPc s (if branchTaken (s.readReg rs1) (s.readReg rs2) then branchTarget s off else s.pcNext)

end Sys2Proof.Machine
end

