-- ==== Sys2Proof/Machine/LoadStore.lean ====
section
/-! DEFINITION. LW and SW (42_load_store.md). -/

namespace Sys2Proof.Machine

/-- LW (R120): the address uses the old `x[rs1]`; a bad address raises before any write, also when `rd` is 0. -/
def execLw (rd rs1 : RegIdx) (imm : BitVec 12) (s : State) : Host.Outcome State Fault Refusal :=
  match s.memRead (loadAddress s rs1 imm) with
  | .ok v => commitRegister s rd v
  | .error e => raise e

/-- SW (R121): "No register is written." -/
def execSw (rs1 rs2 : RegIdx) (imm : BitVec 12) (s : State) : Host.Outcome State Fault Refusal :=
  commitStore s (storeAddress s rs1 imm) (s.readReg rs2)

end Sys2Proof.Machine
end

