-- ==== Sys2Proof/Machine/Sentinel.lean ====
section
/-! DEFINITION. The halt sentinel (44_sequencer.md R146). -/

namespace Sys2Proof.Machine

/-- HALT (R146): it "writes no register and no memory, and it leaves `pc` at the sentinel's own address". The run mode
executes it and then ends with HALTED (Machine/Run.lean). A single step never reaches it, because the decoder does not
know it (R105, R142; log 5). The pc staying is the spec's decision D5 (log 6, UNVERIFIED). -/
def execHalt (_ignored : BitVec 25) (s : State) : Host.Outcome State Fault Refusal := .next s

end Sys2Proof.Machine
end

