-- ==== Sys2Proof/Machine/Fetch.lean ====
section
/-! DEFINITION. Fetching an instruction word (20_memory.md R49), the step's decode phase, and placing a word where the
next fetch looks. -/

namespace Sys2Proof.Machine

/-- `fetch(pc)` (R49): bounds first, then alignment; "A fetch changes nothing." The alignment error of a fetch is the
spec's decision D9, the order D10 (log 10, log 11, UNVERIFIED). -/
def State.fetch (s : State) : Except Fault Word :=
  if wordInBounds s.cfg s.pc then
    if wordAligned s.pc then .ok (Memory.readWord s.mem s.pc.toNat) else .error (.misalignedAccess s.pc)
  else .error (.fetchOutOfBounds s.pc)

/-- The fetch and decode phases of a step, in this order (44_sequencer.md R141). -/
def State.fetchDecode (s : State) : Except Fault Instr :=
  match s.fetch with
  | .error e => .error e
  | .ok w =>
    match decode s.cfg.branchOpcode w with
    | .ok i => .ok i
    | .error e => .error (faultOfDecodeError e)

/-- Where a word is placed for the next fetch: at the pc, or at 0 when the pc cannot be fetched from (log 24). -/
def State.fetchAddress (s : State) : Word :=
  if wordInBounds s.cfg s.pc ∧ wordAligned s.pc then s.pc else 0#32

/-- The state with `w` stored where the next step fetches. It stands for the host's program load (log 24). -/
def State.placeWord (s : State) (w : Word) : State :=
  (s.setMem (Memory.writeWord s.mem s.fetchAddress.toNat w)).setPc s.fetchAddress

end Sys2Proof.Machine
end

