-- ==== Sys2Proof/Machine/Step.lean ====
section
/-! DEFINITION. One step (44_sequencer.md R140). -/

namespace Sys2Proof.Machine

/-- `step()` (R140): fetch, decode, execute and commit; "on any raise: change nothing". -/
def step (s : State) : Host.Outcome State Fault Refusal :=
  match s.fetchDecode with
  | .ok i => exec i s
  | .error e => raise e

/-- `s` with an instruction, numbered as spec/opcode_table.json numbers it, stored where `step` fetches next. -/
def State.withFetchWord (s : State) (nbits w : Nat) : State :=
  s.placeWord (BitVec.ofNat 32 (w % 2 ^ nbits))

end Sys2Proof.Machine
end

