-- ==== Sys2Proof/Machine/Run.lean ====
section
/-! DEFINITION. The run mode and the halt sentinel (44_sequencer.md R145 to R148), under fuel (D24; log 22). -/

namespace Sys2Proof.Machine

/-- How a fuelled run stands (R145, D21). `noResult` is exhausted fuel, "never as `HALTED`" (D24). -/
inductive RunResult where
  /-- `HALTED`: the word at the pc of `s` is the sentinel (R146). -/
  | halted (s : State)
  /-- `ERROR(e)`; `s` is the state before the failing step (R148). -/
  | error (e : Fault) (s : State)
  /-- A step without a meaning; no step is one (log 28). -/
  | refused (r : Refusal) (s : State)
  /-- The fuel ran out in `s`. -/
  | noResult (s : State)
deriving DecidableEq, Repr

/-- `run()` of R145 for at most `n` rounds. A round that finds the sentinel ends the run (R146). -/
def runFor : Nat → State → RunResult
  | 0, s => .noResult s
  | n + 1, s =>
    match s.fetch with
    | .error e => .error e s
    | .ok w =>
      if isSentinelWord w then
        match exec (.halt (ignoredField w)) s with
        | .next t => .halted t
        | .fault e => .error e s
        | .refused r => .refused r s
      else
        match step s with
        | .next t => runFor n t
        | .fault e => .error e s
        | .refused r => .refused r s

/-- What the second formulation of R145 makes of a failed step: `UnknownInstruction(w)` with `w[6:0] = 0` is the halt. -/
def runErrorResult (e : Fault) (s : State) : RunResult :=
  match e with
  | .unknownInstruction w => if isSentinelWord w then .halted s else .error e s
  | .misalignedAccess _ => .error e s
  | .outOfBounds _ => .error e s
  | .fetchOutOfBounds _ => .error e s
  | .registerNotFound _ => .error e s

/-- The "equivalent formulation" of R145: step first, then look at the error. -/
def runByStep : Nat → State → RunResult
  | 0, s => .noResult s
  | n + 1, s =>
    match step s with
    | .next t => runByStep n t
    | .fault e => runErrorResult e s
    | .refused r => .refused r s

end Sys2Proof.Machine
end

