-- ==== Sys2Proof/Machine/Trace.lean ====
section
/-! DEFINITION. The trace output of a step (10_state.md R33, 44_sequencer.md R144) and the numeric error codes of the
host port (60_exceptions.md R167). Both are outputs: nothing reads them back, and they are no state. -/

namespace Sys2Proof.Machine

/-- The tuple of R33. Its layout is the spec's decision D20 (log 21, UNVERIFIED). -/
structure TraceRecord where
  word : Option Word
  decoded : Option DecodedInstruction
  pcBefore : Word
  pcAfter : Word
  regsRead : List RegIdx
  regWritten : Option RegIdx
  error : Option Fault
deriving DecidableEq, Repr

/-- The register a completed instruction changes: its `rd`, and none when that is register 0, whose write is discarded
(R13). DESIGN CHOICE (log 21): the spec does not say how the record shows a discarded write. -/
def regWritten (i : Instr) : Option RegIdx :=
  match regDest i with
  | some rd => if rd = 0#5 then none else some rd
  | none => none

/-- A failing step's record: "`pc` after equals `pc` before and the written register is none" (R33). -/
def TraceRecord.failed (word : Option Word) (decoded : Option DecodedInstruction) (pc : Word) (read : List RegIdx)
    (e : Option Fault) : TraceRecord :=
  { word := word, decoded := decoded, pcBefore := pc, pcAfter := pc, regsRead := read, regWritten := none, error := e }

/-- The record of the step that `step s` makes. No word without a fetch, no decoded form without a decode (R144). -/
def traceStep (s : State) : TraceRecord :=
  match s.fetch with
  | .error e => .failed none none s.pc [] (some e)
  | .ok w =>
    match decode s.cfg.branchOpcode w with
    | .error e => .failed (some w) none s.pc [] (some (faultOfDecodeError e))
    | .ok i =>
      match exec i s with
      | .next t =>
        { word := some w, decoded := decodedRecord i, pcBefore := s.pc, pcAfter := t.pc, regsRead := regsRead i,
          regWritten := regWritten i, error := none }
      | .fault e => .failed (some w) (decodedRecord i) s.pc (regsRead i) (some e)
      | .refused _ => .failed (some w) (decodedRecord i) s.pc (regsRead i) none

/-- The error-status code of R167, decision D13 of the spec (log 14, UNVERIFIED). Code 0 is ok. -/
def errorCode : Option Fault → Nat
  | none => 0
  | some (.unknownInstruction _) => 1
  | some (.misalignedAccess _) => 2
  | some (.outOfBounds _) => 3
  | some (.fetchOutOfBounds _) => 4
  | some (.registerNotFound _) => 5

/-- The error-information word of R167; `RegisterNotFound` carries a name, in host software only. -/
def errorInfo : Fault → Option Word
  | .unknownInstruction w => some w
  | .misalignedAccess a => some a
  | .outOfBounds a => some a
  | .fetchOutOfBounds p => some p
  | .registerNotFound _ => none

end Sys2Proof.Machine
end

