-- ==== Sys2Proof/Machine/HostPort.lean ====
section
/-! DEFINITION. The host command port (10_state.md R26, R31; 20_memory.md R50; 70_reset_and_hazards.md R190). Each
command is one function of the state between two steps (R62). No command writes the pc other than by reset and by steps
(R26, D23). -/

namespace Sys2Proof.Machine

/-- The register names in index order (R14). DOC00 gives no other name, so `fp` and `x5` are none. -/
def registerNames : List String :=
  ["zero", "ra", "sp", "gp", "tp", "t0", "t1", "t2"] ++ ["s0", "s1", "a0", "a1", "a2", "a3", "a4", "a5"] ++
    ["a6", "a7", "s2", "s3", "s4", "s5", "s6", "s7"] ++ ["s8", "s9", "s10", "s11", "t3", "t4", "t5", "t6"]

/-- The register a selector stands for (R26); an index above 31 stands for none (D18; log 19). -/
def resolveRegister : RegSelector → Option RegIdx
  | .name n => (registerNames.findIdx? (· == n)).map (BitVec.ofNat 5)
  | .index i => if i < 32 then some (BitVec.ofNat 5 i) else none

/-- `get_register` (R26). An unknown register gives `RegisterNotFound` (R166, D18; log 19). -/
def State.getRegister (s : State) (sel : RegSelector) : Except Fault Word :=
  match resolveRegister sel with
  | some r => .ok (s.readReg r)
  | none => .error (.registerNotFound sel)

/-- `set_register` (R26). `set_register(0, v)` succeeds and changes nothing. -/
def State.setRegister (s : State) (sel : RegSelector) (v : Word) : Except Fault State :=
  match resolveRegister sel with
  | some r => .ok (s.writeReg r v)
  | none => .error (.registerNotFound sel)

/-- `load_image(bytes, at_offset)` (20_memory.md R50): no alignment is asked, and on failure no byte is copied.
The bound is compared on unbounded integers and the error carries the offset (D15; log 16, UNVERIFIED). -/
def State.loadImage (s : State) (bytes : List Byte) (atOffset : Word) : Except Fault State :=
  if atOffset.toNat + bytes.length ≤ s.cfg.memSize then
    .ok (s.setMem (Memory.writeBytes s.mem atOffset.toNat bytes))
  else .error (.outOfBounds atOffset)

/-- `RESET` (R190): every piece of state to its reset value; the parameters "do not change afterwards". -/
def State.hostReset (s : State) : State := State.resetWith s.cfg

/-- The commands of R31. `run` carries the step budget the caller imposes (44_sequencer.md R147; log 22). -/
inductive HostCommand where
  | reset
  | loadImage (bytes : List Byte) (atOffset : Word)
  | getReg (sel : RegSelector)
  | setReg (sel : RegSelector) (v : Word)
  | readWord (addr : Word)
  | writeWord (addr : Word) (v : Word)
  | step
  | run (fuel : Nat)
deriving DecidableEq, Repr

/-- The results of R31. A step answers its trace record, which holds its error if it has one (R144). -/
inductive HostResponse where
  | ok
  | word (w : Word)
  | error (e : Fault)
  | stepped (t : TraceRecord)
  | halted
  | noResult
  | refused (r : Refusal)
deriving DecidableEq, Repr

/-- The state after a step command: the next state, and otherwise the state as it was (R161). -/
def State.afterStep (s : State) : State :=
  match Sys2Proof.Machine.step s with
  | .next t => t
  | .fault _ => s
  | .refused _ => s

/-- The result and the state of a run command (R145). -/
def runResponse : RunResult → HostResponse × State
  | .halted t => (.halted, t)
  | .error e t => (.error e, t)
  | .refused r t => (.refused r, t)
  | .noResult t => (.noResult, t)

/-- The result and the state of a command that yields a state or an error; an error changes nothing (R161). -/
def stateResponse (s : State) : Except Fault State → HostResponse × State
  | .ok t => (.ok, t)
  | .error e => (.error e, s)

/-- The result of a command that only reads. -/
def wordResponse : Except Fault Word → HostResponse
  | .ok w => .word w
  | .error e => .error e

/-- One command at the host port (R31). -/
def hostCommand (s : State) : HostCommand → HostResponse × State
  | .reset => (.ok, s.hostReset)
  | .loadImage bytes atOffset => stateResponse s (s.loadImage bytes atOffset)
  | .getReg sel => (wordResponse (s.getRegister sel), s)
  | .setReg sel v => stateResponse s (s.setRegister sel v)
  | .readWord addr => (wordResponse (s.memRead addr), s)
  | .writeWord addr v => stateResponse s (s.memWrite addr v)
  | .step => (.stepped (traceStep s), s.afterStep)
  | .run fuel => runResponse (runFor fuel s)

end Sys2Proof.Machine
end

