-- ==== Sys2Proof/Safety.lean ====
section
/-! DEFINITION. What holds of every state a host can bring about, what a run may reach, and what a safe run is. -/

namespace Sys2Proof

open Sys2Proof.Machine

/-- The invariant of the machine. `reset` has it and every step and host command keeps it. -/
structure MachineInv (s : State) : Prop where
  /-- The parameters are ones R5 admits. -/
  cfg_valid : s.cfg.valid
  /-- Memory is in its canonical form. -/
  mem_wf : Memory.wf s.mem
  /-- Memory lists no address outside `0 .. MEM_SIZE-1`: "no resizing" (10_state.md R23). -/
  mem_inRange : ∀ c ∈ s.mem, c.1 < s.cfg.memSize
  /-- The slot of the hard-wired register holds zero (R12). -/
  x0_zero : s.regs[0] = 0#32

/-- `t` is reached from `s` by completed steps. -/
inductive Steps : State → State → Prop where
  | refl (s : State) : Steps s s
  | step {s t u : State} (h : step s = .next t) (rest : Steps t u) : Steps s u

/-- A run from `s` that ends cleanly in `t` (70_reset_and_hazards.md R195 (a)). -/
def HaltsIn (s t : State) : Prop := ∃ n, runFor n s = .halted t

/-- A run from `s` that ends with the error `e` in `t` (R195 (b)). -/
def FailsIn (s : State) (e : Fault) (t : State) : Prop := ∃ n, runFor n s = .error e t

/-- A run from `s` that never ends (R195 (c), 44_sequencer.md R147): no fuel is enough. -/
def RunsForever (s : State) : Prop := ∀ n, ∃ t, runFor n s = .noResult t

/-- A safe run: it reports no error, whether it halts or goes on (93_implementation_defined.md U8). -/
def SafeRun (s : State) : Prop := ∀ e t, ¬ FailsIn s e t

/-- The address whose word an instruction reads or writes in memory: LW's and SW's, and no other's (20_memory.md R41). -/
def dataAddress (s : State) : Instr → Option Word
  | .add _ _ _ => none
  | .sub _ _ _ => none
  | .addi _ _ _ => none
  | .lw _ rs1 imm => some (loadAddress s rs1 imm)
  | .sw rs1 _ imm => some (storeAddress s rs1 imm)
  | .lui _ _ => none
  | .beq _ _ _ => none
  | .halt _ => none

/-! ## What an instruction leaves unchanged -/

/-- Every byte of memory reads in `t` as it reads in `s`. -/
def SameBytes (s t : State) : Prop := ∀ a, Memory.readByte t.mem a = Memory.readByte s.mem a

/-- Every byte outside the four from address `a` upwards reads in `t` as it reads in `s`. -/
def SameBytesOutside (a : Word) (s t : State) : Prop :=
  ∀ x, x < a.toNat ∨ a.toNat + 4 ≤ x → Memory.readByte t.mem x = Memory.readByte s.mem x

/-- Every register reads in `t` as it reads in `s`. -/
def SameRegs (s t : State) : Prop := ∀ r, t.readReg r = s.readReg r

/-- `t` is `s` with the register write `x[rd] <- v`, which register 0 discards, and `pc + 4`; nothing else differs. -/
structure WritesRegister (s t : State) (rd : RegIdx) (v : Word) : Prop where
  /-- The destination, unless it is the hard-wired register, holds `v`, and every other register is unchanged. -/
  regs : ∀ r, t.readReg r = if r = rd ∧ r ≠ 0#5 then v else s.readReg r
  bytes : SameBytes s t
  pc : t.pc = s.pc + 4#32
  cfg : t.cfg = s.cfg

/-- The word `w` decodes to an instruction with the decoded record `d` (40_decoder.md R101) that reads exactly the registers
`reads` and has the `rd` field `dest` (10_state.md R16). -/
def DecodesWith (bop : BitVec 7) (w : Word) (d : DecodedInstruction) (reads : List RegIdx) (dest : Option RegIdx) : Prop :=
  ∃ i, decode bop w = .ok i ∧ decodedRecord i = some d ∧ (∀ r, r ∈ regsRead i ↔ r ∈ reads) ∧ regDest i = dest

/-- `sext_N(v)` as an integer, by the formula of 00_scope.md section 4. -/
def sextNat (n v : Nat) : Nat := if v < 2 ^ (n - 1) then v else v + 2 ^ 32 - 2 ^ n

end Sys2Proof
end

