-- ==== Sys2Proof/Certificates/Slice0/Obligations.lean ====
section
/-! DEFINITION. The statements for the provers. Each docstring names the rule of spec/ it formalises. "D<n>" is a decision
that the spec marks as its own; a statement that rests on one is 'derived' in OBLIGATIONS.json. -/

open Sys2Proof Sys2Proof.Machine

/-! ## Encoding and decoding -/

/-- The words of 95_test_vectors.md E1 to E5 and V1 decode to the instructions that stand beside them there.
The branch opcode is decision D1 (log 2), the `funct3` values of ADDI, LW, SW and BEQ decision D2 (log 3), the
B-immediate's positions log 25. -/
def Obligations.DecoderReadsTheSpecsWords : Prop :=
  decode 0x63#7 0x12345537#32 = .ok (.lui 10#5 0x12345#20) ∧
  decode 0x63#7 0x02A00593#32 = .ok (.addi 11#5 0#5 42#12) ∧
  decode 0x63#7 0x00B50633#32 = .ok (.add 12#5 10#5 11#5) ∧
  decode 0x63#7 0x40B606B3#32 = .ok (.sub 13#5 12#5 11#5) ∧
  decode 0x63#7 0x00C12023#32 = .ok (.sw 2#5 12#5 0#12) ∧
  decode 0x63#7 0xFFC12783#32 = .ok (.lw 15#5 2#5 0xFFC#12) ∧
  decode 0x63#7 0xFE000EE3#32 = .ok (.beq 0#5 0#5 0x1FFC#13)

/-- 40_decoder.md, law (a) of R106: decoding an encoded instruction gives it back, for every row and every operand.
The run mode's reading gives back the sentinel row too; the decoder refuses its words (R105). Every admitted
`BRANCH_OPCODE` is covered (D1). -/
def Obligations.DecodeOfEncodeGivesTheInstruction : Prop :=
  ∀ (c : Config) (i : Instr), c.valid → i.wellFormed = true →
    recognise c.branchOpcode (encode c.branchOpcode i) = .ok i ∧
    decode c.branchOpcode (encode c.branchOpcode i) =
      (if i.isSentinel then .error (.unknownInstruction (encode c.branchOpcode i)) else .ok i)

/-- 40_decoder.md, law (b) of R106: every bit of a legal word is checked or copied, so a decoded instruction is
well-formed, is no sentinel, and encodes to exactly the word it came from. -/
def Obligations.EncodeOfDecodeGivesTheWord : Prop :=
  ∀ (bop : BitVec 7) (w : Word) (i : Instr), decode bop w = .ok i →
    encode bop i = w ∧ i.wellFormed = true ∧ i.isSentinel = false

/-- 30_encoding.md R90: the decoder refuses a word, with that word, exactly when it matches none of the seven rows.
The rows' `funct3` values and the branch opcode are decisions D1 to D3. -/
def Obligations.DecodeRefusesExactlyTheUnmatchedWords : Prop :=
  ∀ (c : Config) (w : Word), c.valid →
    (decode c.branchOpcode w = .error (.unknownInstruction w) ↔
      ∀ r ∈ opcodeMap c.branchOpcode, r.matchesWord w = false)

/-- 30_encoding.md R80: "The seven masks and matches are pairwise disjoint (no word matches two rows)"; the sentinel's
row (R91) is disjoint from them too. -/
def Obligations.OpcodeRowsShareNoWord : Prop :=
  ∀ (c : Config), c.valid →
    (opcodeMap c.branchOpcode ++ [sentinelRow]).Pairwise
      (fun r q => ∀ w, r.matchesWord w = true → q.matchesWord w = false)

/-- 30_encoding.md R80: "the word `w` is this instruction exactly when `w & mask = match`". -/
def Obligations.AMatchingRowNamesTheInstruction : Prop :=
  ∀ (c : Config) (w : Word), c.valid → ∀ r ∈ opcodeMap c.branchOpcode,
    (r.matchesWord w = true ↔ ∃ i, decode c.branchOpcode w = .ok i ∧ i.mnemonic = r.mnemonic)

/-- 40_decoder.md, law (c) of R106: the number of legal words. -/
def Obligations.LegalWordsNumberFiftyMillion : Prop :=
  ∀ (c : Config), c.valid → Nat.card {w : Word // ∃ i, decode c.branchOpcode w = .ok i} = 50397184

/-- 40_decoder.md R103: the decoder has one error, and it carries "the full 32-bit word as fetched". -/
def Obligations.DecodeErrorCarriesTheWord : Prop :=
  ∀ (bop : BitVec 7) (w : Word) (e : DecodeError), decode bop w = .error e → e = .unknownInstruction w

/-! ## Registers -/

/-- 10_state.md R12 and R13. Register 0 reads as 0 for instructions and for the host, whatever was written; a write to it
changes nothing and is no error; an instruction whose `rd` is 0 completes or fails as it would with any other `rd`,
advances the pc and changes no register. -/
def Obligations.RegisterZeroIsHardWired : Prop :=
  (∀ s : State, s.readReg 0#5 = 0#32) ∧
  (∀ (s : State) (r : RegIdx) (v : Word), (s.writeReg r v).readReg 0#5 = 0#32) ∧
  (∀ (s : State) (v : Word), s.writeReg 0#5 v = s) ∧
  (∀ s : State, s.getRegister (.index 0) = .ok 0#32 ∧ s.getRegister (.name "zero") = .ok 0#32) ∧
  (∀ (s : State) (v : Word), s.setRegister (.index 0) v = .ok s ∧ s.setRegister (.name "zero") v = .ok s) ∧
  (∀ (s : State) (rs1 rs2 : RegIdx), exec (.add 0#5 rs1 rs2) s = .next (s.setPc (s.pc + 4#32))) ∧
  (∀ (s : State) (rs1 rs2 : RegIdx), exec (.sub 0#5 rs1 rs2) s = .next (s.setPc (s.pc + 4#32))) ∧
  (∀ (s : State) (rs1 : RegIdx) (imm : BitVec 12), exec (.addi 0#5 rs1 imm) s = .next (s.setPc (s.pc + 4#32))) ∧
  (∀ (s : State) (imm20 : BitVec 20), exec (.lui 0#5 imm20) s = .next (s.setPc (s.pc + 4#32))) ∧
  (∀ (s : State) (rd rs1 : RegIdx) (imm : BitVec 12),
    (∀ e, exec (.lw 0#5 rs1 imm) s = .fault e ↔ exec (.lw rd rs1 imm) s = .fault e) ∧
    ((∃ t, exec (.lw rd rs1 imm) s = .next t) → exec (.lw 0#5 rs1 imm) s = .next (s.setPc (s.pc + 4#32))))

/-- 10_state.md R14: the 32 names, in the order of the table, each for its own index and for no other. -/
def Obligations.RegisterNamesMapBijectively : Prop :=
  registerNames = ["zero", "ra", "sp", "gp", "tp", "t0", "t1", "t2", "s0", "s1", "a0", "a1", "a2", "a3", "a4", "a5",
    "a6", "a7", "s2", "s3", "s4", "s5", "s6", "s7", "s8", "s9", "s10", "s11", "t3", "t4", "t5", "t6"] ∧
  (∀ r : RegIdx, ∃ n, registerNames[r.toNat]? = some n ∧ resolveRegister (.name n) = some r) ∧
  (∀ (n : String) (r : RegIdx), resolveRegister (.name n) = some r → registerNames[r.toNat]? = some n)

/-- 10_state.md section 5 (host access): the two laws of DOC00 §8, the frame of a host write, and what an unknown register
gives. Reporting it for an index above 31 and for `get_register` is decision D18 (log 19). -/
def Obligations.HostRegisterAccessFollowsItsLaws : Prop :=
  ∀ (s : State) (sel : RegSelector) (v : Word),
    (∀ r, resolveRegister sel = some r →
      s.getRegister sel = .ok (s.readReg r) ∧
      ∃ t, s.setRegister sel v = .ok t ∧
        t.getRegister sel = .ok (if r = 0#5 then 0#32 else v) ∧
        (∀ q, q ≠ r → t.readReg q = s.readReg q) ∧ SameBytes s t ∧ t.pc = s.pc ∧ t.cfg = s.cfg) ∧
    (resolveRegister sel = none →
      s.getRegister sel = .error (.registerNotFound sel) ∧ s.setRegister sel v = .error (.registerNotFound sel)) ∧
    (∀ n, sel = .index n → (resolveRegister sel = none ↔ 31 < n)) ∧
    (∀ n, sel = .name n → (resolveRegister sel = none ↔ n ∉ registerNames))

/-! ## The ALU instructions -/

/-- 41_alu.md R111. -/
def Obligations.AddWritesTheSumModulo : Prop :=
  (∀ (s : State) (rd rs1 rs2 : RegIdx), ∃ t, exec (.add rd rs1 rs2) s = .next t ∧
    WritesRegister s t rd (BitVec.ofNat 32 (((s.readReg rs1).toNat + (s.readReg rs2).toNat) % 2 ^ 32))) ∧
  (∀ (bop : BitVec 7) (w : Word), w &&& 0xFE00707F#32 = 0x00000033#32 →
    decode bop w = .ok (.add (w.extractLsb' 7 5) (w.extractLsb' 15 5) (w.extractLsb' 20 5)))

/-- 41_alu.md R112, "minuend rs1, subtrahend rs2". -/
def Obligations.SubWritesTheDifferenceModulo : Prop :=
  (∀ (s : State) (rd rs1 rs2 : RegIdx), ∃ t, exec (.sub rd rs1 rs2) s = .next t ∧
    WritesRegister s t rd (BitVec.ofNat 32 (((s.readReg rs1).toNat + 2 ^ 32 - (s.readReg rs2).toNat) % 2 ^ 32))) ∧
  (∀ (bop : BitVec 7) (w : Word), w &&& 0xFE00707F#32 = 0x40000033#32 →
    decode bop w = .ok (.sub (w.extractLsb' 7 5) (w.extractLsb' 15 5) (w.extractLsb' 20 5)))

/-- 41_alu.md R113, the immediate sign-extended by the formula of 00_scope.md section 4. Two clauses are the spec's
inferences, not DOC00's: "The addition wraps modulo 2^32 like ADD's [derived: from rule R110 ...]", and ADDI's `funct3`,
decision D2 (R86; log 3). -/
def Obligations.AddiAddsTheSignExtendedImmediate : Prop :=
  (∀ (s : State) (rd rs1 : RegIdx) (imm : BitVec 12), ∃ t, exec (.addi rd rs1 imm) s = .next t ∧
    WritesRegister s t rd (BitVec.ofNat 32 (((s.readReg rs1).toNat + sextNat 12 imm.toNat) % 2 ^ 32))) ∧
  (∀ (bop : BitVec 7) (w : Word), w &&& 0x0000707F#32 = 0x00000013#32 →
    decode bop w = .ok (.addi (w.extractLsb' 7 5) (w.extractLsb' 15 5) (w.extractLsb' 20 12)))

/-- 41_alu.md R114: the word LUI writes is `w & 0xFFFFF000`, "the lower 12 bits zero". -/
def Obligations.LuiWritesTheUpperImmediate : Prop :=
  (∀ (s : State) (rd : RegIdx) (imm20 : BitVec 20), ∃ t, exec (.lui rd imm20) s = .next t ∧
    WritesRegister s t rd (BitVec.ofNat 32 (imm20.toNat * 2 ^ 12))) ∧
  (∀ (bop : BitVec 7) (w : Word), w &&& 0x0000007F#32 = 0x00000037#32 →
    decode bop w = .ok (.lui (w.extractLsb' 7 5) (w.extractLsb' 12 20)) ∧
    ∀ s : State, ∃ t, exec (.lui (w.extractLsb' 7 5) (w.extractLsb' 12 20)) s = .next t ∧
      WritesRegister s t (w.extractLsb' 7 5) (w &&& 0xFFFFF000#32))

/-- 41_alu.md R115: LUI and then ADDI builds every 32-bit constant, with a suitable pair of immediates. -/
def Obligations.LuiThenAddiBuildsEveryConstant : Prop :=
  ∀ (v : Word), ∃ (imm20 : BitVec 20) (imm12 : BitVec 12), ∀ (s : State) (rd : RegIdx), rd ≠ 0#5 →
    ∃ t u, exec (.lui rd imm20) s = .next t ∧ exec (.addi rd rd imm12) t = .next u ∧ u.readReg rd = v

/-! ## Loads and stores -/

/-- 20_memory.md R56 and 43_branch.md R130: the addresses that LW, SW and BEQ compute, reduced modulo 2^32 (decisions D11
and D12; log 12, log 13). -/
def Obligations.AddressesWrapModulo : Prop :=
  ∀ (s : State) (rs1 : RegIdx) (imm : BitVec 12) (off : BitVec 13),
    (loadAddress s rs1 imm).toNat = ((s.readReg rs1).toNat + sextNat 12 imm.toNat) % 2 ^ 32 ∧
    (storeAddress s rs1 imm).toNat = ((s.readReg rs1).toNat + sextNat 12 imm.toNat) % 2 ^ 32 ∧
    (branchTarget s off).toNat = (s.pc.toNat + sextNat 13 off.toNat) % 2 ^ 32

/-- 42_load_store.md R120: with an aligned address inside memory LW completes with the little-endian word there; every
word of LW's row decodes to it, with its fields where R73 and R82 put them. The wrap of the address is decision D11, the
row's `funct3` decision D2 (log 3). -/
def Obligations.LwLoadsTheLittleEndianWord : Prop :=
  (∀ (s : State) (rd rs1 : RegIdx) (imm : BitVec 12),
    let a := (loadAddress s rs1 imm).toNat
    a % 4 = 0 → a + 4 ≤ s.cfg.memSize →
    ∃ t, exec (.lw rd rs1 imm) s = .next t ∧
      WritesRegister s t rd (Memory.readByte s.mem (a + 3) ++ Memory.readByte s.mem (a + 2) ++
        Memory.readByte s.mem (a + 1) ++ Memory.readByte s.mem a)) ∧
  (∀ (bop : BitVec 7) (w : Word), w &&& 0x0000707F#32 = 0x00002003#32 →
    decode bop w = .ok (.lw (w.extractLsb' 7 5) (w.extractLsb' 15 5) (w.extractLsb' 20 12)))

/-- 42_load_store.md R121: with an aligned address inside memory SW completes; the four bytes there are those of
`x[rs2]`, least significant first, and every other byte and every register is unchanged. Every word of SW's row decodes
to it, the immediate being `w[31:25] || w[11:7]` (R74, R83). The wrap of the address is decision D11, the row's `funct3`
decision D2 (log 3). -/
def Obligations.SwStoresTheLittleEndianWord : Prop :=
  (∀ (s : State) (rs1 rs2 : RegIdx) (imm : BitVec 12),
    Memory.wf s.mem → (storeAddress s rs1 imm).toNat % 4 = 0 → (storeAddress s rs1 imm).toNat + 4 ≤ s.cfg.memSize →
    ∃ t, exec (.sw rs1 rs2 imm) s = .next t ∧
      (∀ i, i < 4 → Memory.readByte t.mem ((storeAddress s rs1 imm).toNat + i) =
        (s.readReg rs2).extractLsb' (8 * i) 8) ∧
      SameBytesOutside (storeAddress s rs1 imm) s t ∧
      SameRegs s t ∧ t.pc = s.pc + 4#32 ∧ t.cfg = s.cfg) ∧
  (∀ (bop : BitVec 7) (w : Word), w &&& 0x0000707F#32 = 0x00002023#32 →
    decode bop w =
      .ok (.sw (w.extractLsb' 15 5) (w.extractLsb' 20 5) (w.extractLsb' 25 7 ++ w.extractLsb' 7 5)))

/-- 42_load_store.md R120, R121 and 20_memory.md R48: on which addresses LW and SW stop, with which error, and on no
other. Alignment before bounds is decision D10 (log 11). -/
def Obligations.LwAndSwStopExactlyOnABadAddress : Prop :=
  ∀ (s : State) (e : Fault),
    (∀ (rd rs1 : RegIdx) (imm : BitVec 12), exec (.lw rd rs1 imm) s = .fault e ↔
      ((loadAddress s rs1 imm).toNat % 4 ≠ 0 ∧ e = .misalignedAccess (loadAddress s rs1 imm)) ∨
      ((loadAddress s rs1 imm).toNat % 4 = 0 ∧ s.cfg.memSize < (loadAddress s rs1 imm).toNat + 4 ∧
        e = .outOfBounds (loadAddress s rs1 imm))) ∧
    (∀ (rs1 rs2 : RegIdx) (imm : BitVec 12), exec (.sw rs1 rs2 imm) s = .fault e ↔
      ((storeAddress s rs1 imm).toNat % 4 ≠ 0 ∧ e = .misalignedAccess (storeAddress s rs1 imm)) ∨
      ((storeAddress s rs1 imm).toNat % 4 = 0 ∧ s.cfg.memSize < (storeAddress s rs1 imm).toNat + 4 ∧
        e = .outOfBounds (storeAddress s rs1 imm)))

/-- 42_load_store.md R122: a load after a store to the same address yields the stored value. -/
def Obligations.LoadAfterStoreYieldsTheStoredWord : Prop :=
  ∀ (s t : State) (rs1 rs2 rd rs1' : RegIdx) (imm imm' : BitVec 12), Memory.wf s.mem → rd ≠ 0#5 →
    exec (.sw rs1 rs2 imm) s = .next t → loadAddress t rs1' imm' = storeAddress s rs1 imm →
    ∃ u, exec (.lw rd rs1' imm') t = .next u ∧ u.readReg rd = s.readReg rs2

/-! ## BEQ and the sentinel -/

/-- 43_branch.md R130: BEQ always completes; only the pc changes, to the target when the two words are equal and to
`pc + 4` otherwise. Under admitted parameters every word of BEQ's row decodes to it, the offset being
`w[31] || w[7] || w[30:25] || w[11:8] || 0` (R85). The pc's width and wrap are decision D12 (log 13), the row's opcode and
`funct3` decisions D1 and D2 (log 2, log 3); the offset's positions are the spec's reading of DOC00's order (log 25). -/
def Obligations.BeqRedirectsThePcOnEquality : Prop :=
  (∀ (s : State) (rs1 rs2 : RegIdx) (off : BitVec 13), ∃ t, exec (.beq rs1 rs2 off) s = .next t ∧
    (s.readReg rs1 = s.readReg rs2 → t.pc = BitVec.ofNat 32 ((s.pc.toNat + sextNat 13 off.toNat) % 2 ^ 32)) ∧
    (s.readReg rs1 ≠ s.readReg rs2 → t.pc = s.pc + 4#32) ∧
    SameRegs s t ∧ SameBytes s t ∧ t.cfg = s.cfg) ∧
  (∀ (c : Config) (w : Word), c.valid → w &&& 0x0000707F#32 = c.branchOpcode.setWidth 32 →
    decode c.branchOpcode w = .ok (.beq (w.extractLsb' 15 5) (w.extractLsb' 20 5)
      (w.extractLsb' 31 1 ++ w.extractLsb' 7 1 ++ w.extractLsb' 25 6 ++ w.extractLsb' 8 4 ++ 0#1)))

/-- 44_sequencer.md R146 and R142: the sentinel's own effect is none; in run mode it ends the run in place; a single step
at it reports the word as unknown. Decisions D4 and D5 (log 5, log 6). -/
def Obligations.SentinelEndsARunInPlace : Prop :=
  ∀ (s : State) (ignored : BitVec 25), exec (.halt ignored) s = .next s ∧
    (s.cfg.valid → s.fetch = .ok (encode s.cfg.branchOpcode (.halt ignored)) →
      (∀ n, runFor (n + 1) s = .halted s) ∧
      step s = .fault (.unknownInstruction (encode s.cfg.branchOpcode (.halt ignored))))

/-! ## Every instruction -/

/-- 60_exceptions.md R168: which errors an instruction can raise, and which a step can. -/
def Obligations.OnlyLoadsAndStoresCanFail : Prop :=
  (∀ (s : State) (i : Instr) (e : Fault), exec i s = .fault e →
    (∃ rd rs1 imm, i = .lw rd rs1 imm ∧
      (e = .misalignedAccess (loadAddress s rs1 imm) ∨ e = .outOfBounds (loadAddress s rs1 imm))) ∨
    (∃ rs1 rs2 imm, i = .sw rs1 rs2 imm ∧
      (e = .misalignedAccess (storeAddress s rs1 imm) ∨ e = .outOfBounds (storeAddress s rs1 imm)))) ∧
  (∀ (s : State) (e : Fault), step s = .fault e →
    e = .fetchOutOfBounds s.pc ∨ e = .misalignedAccess s.pc ∨
    (∃ w, s.fetch = .ok w ∧ e = .unknownInstruction w) ∨
    (∃ w i, s.fetch = .ok w ∧ decode s.cfg.branchOpcode w = .ok i ∧ exec i s = .fault e))

/-- 10_state.md R16 and 44_sequencer.md R143, the frame of every instruction: no register but the one the `rd` field names
changes; no byte changes but the four SW stores to. -/
def Obligations.InstructionsChangeOnlyTheirDestination : Prop :=
  ∀ (s t : State) (i : Instr), exec i s = .next t →
    (∀ r, regDest i ≠ some r → t.readReg r = s.readReg r) ∧
    ((∀ rs1 rs2 imm, i ≠ .sw rs1 rs2 imm) → SameBytes s t) ∧
    (∀ rs1 rs2 imm, i = .sw rs1 rs2 imm → Memory.wf s.mem → SameBytesOutside (storeAddress s rs1 imm) s t) ∧
    t.cfg = s.cfg

/-- 10_state.md R16, noninterference: what an instruction does depends on no register but those it reads. Two states that
agree on the pc, memory, parameters and those registers give the same error, or next states that agree on the pc, memory,
parameters and the destination. -/
def Obligations.InstructionsDependOnlyOnTheirSources : Prop :=
  ∀ (s s' : State) (i : Instr), s.pc = s'.pc → s.mem = s'.mem → s.cfg = s'.cfg →
    (∀ r ∈ regsRead i, s.readReg r = s'.readReg r) →
    (∀ e, exec i s = .fault e ↔ exec i s' = .fault e) ∧
    (∀ t, exec i s = .next t → ∃ t', exec i s' = .next t' ∧ t.pc = t'.pc ∧ t.mem = t'.mem ∧ t.cfg = t'.cfg ∧
      ∀ r, regDest i = some r → t.readReg r = t'.readReg r)

/-- 10_state.md R17, R19 and 43_branch.md R130: from an aligned pc, only a taken BEQ whose offset is 2 modulo 4 leads to a
pc that is not a multiple of 4, and the pc stays even in any case (conflict C2). -/
def Obligations.OnlyATakenBranchLeavesAlignment : Prop :=
  ∀ (s t : State), step s = .next t → s.pc.toNat % 4 = 0 →
    t.pc.toNat % 2 = 0 ∧
    (t.pc.toNat % 4 ≠ 0 → ∃ rs1 rs2 off, s.fetchDecode = .ok (.beq rs1 rs2 off) ∧
      s.readReg rs1 = s.readReg rs2 ∧ off.toNat % 4 = 2)

/-! ## Memory -/

/-- 20_memory.md R42: where the bytes of a word stand, and what word four bytes make, for a data access and a fetch. -/
def Obligations.MemoryIsLittleEndian : Prop :=
  (∀ (s t : State) (a v : Word), Memory.wf s.mem → s.memWrite a v = .ok t →
    Memory.readByte t.mem a.toNat = v.extractLsb' 0 8 ∧
    Memory.readByte t.mem (a.toNat + 1) = v.extractLsb' 8 8 ∧
    Memory.readByte t.mem (a.toNat + 2) = v.extractLsb' 16 8 ∧
    Memory.readByte t.mem (a.toNat + 3) = v.extractLsb' 24 8) ∧
  (∀ (s : State) (a v : Word), s.memRead a = .ok v →
    v = Memory.readByte s.mem (a.toNat + 3) ++ Memory.readByte s.mem (a.toNat + 2) ++
      Memory.readByte s.mem (a.toNat + 1) ++ Memory.readByte s.mem a.toNat) ∧
  (∀ (s : State) (w : Word), s.fetch = .ok w →
    w = Memory.readByte s.mem (s.pc.toNat + 3) ++ Memory.readByte s.mem (s.pc.toNat + 2) ++
      Memory.readByte s.mem (s.pc.toNat + 1) ++ Memory.readByte s.mem s.pc.toNat)

/-- 20_memory.md R44: a misaligned word access always fails with its address, by the host and by LW and SW. -/
def Obligations.MisalignedWordAccessAlwaysFails : Prop :=
  (∀ (s : State) (a v : Word), a.toNat % 4 ≠ 0 →
    s.memRead a = .error (.misalignedAccess a) ∧ s.memWrite a v = .error (.misalignedAccess a)) ∧
  (∀ (s : State) (rd rs1 : RegIdx) (imm : BitVec 12), (loadAddress s rs1 imm).toNat % 4 ≠ 0 →
    exec (.lw rd rs1 imm) s = .fault (.misalignedAccess (loadAddress s rs1 imm))) ∧
  (∀ (s : State) (rs1 rs2 : RegIdx) (imm : BitVec 12), (storeAddress s rs1 imm).toNat % 4 ≠ 0 →
    exec (.sw rs1 rs2 imm) s = .fault (.misalignedAccess (storeAddress s rs1 imm)))

/-- 20_memory.md R46 and R47: the word write, its two failures in their order (D10), what it changes, and that a read
returns "the exact value written". -/
def Obligations.WordWriteStoresOrChangesNothing : Prop :=
  ∀ (s : State) (a v : Word), Memory.wf s.mem →
    (a.toNat % 4 ≠ 0 → s.memWrite a v = .error (.misalignedAccess a)) ∧
    (a.toNat % 4 = 0 → s.cfg.memSize < a.toNat + 4 →
      s.memWrite a v = .error (.outOfBounds a) ∧ s.memRead a = .error (.outOfBounds a)) ∧
    (a.toNat % 4 = 0 → a.toNat + 4 ≤ s.cfg.memSize → ∃ t, s.memWrite a v = .ok t ∧
      t.memRead a = .ok v ∧ SameBytesOutside a s t ∧ SameRegs s t ∧ t.pc = s.pc ∧ t.cfg = s.cfg ∧
      Memory.wf t.mem)

/-- 20_memory.md R60: a stored word is what a fetch at its address returns, starting with the very next step, whether SW
or the host stored it. -/
def Obligations.AStoredWordIsSeenByTheNextFetch : Prop :=
  (∀ (s t : State) (rs1 rs2 : RegIdx) (imm : BitVec 12), Memory.wf s.mem → exec (.sw rs1 rs2 imm) s = .next t →
    (t.setPc (storeAddress s rs1 imm)).fetch = .ok (s.readReg rs2) ∧
    (storeAddress s rs1 imm = s.pc + 4#32 → t.fetch = .ok (s.readReg rs2))) ∧
  (∀ (s t : State) (v : Word), Memory.wf s.mem → s.memWrite s.pc v = .ok t → t.fetch = .ok v)

/-- 20_memory.md R50: `load_image` copies every byte or none. The unbounded comparison, the error's value and the absence
of an alignment rule are decision D15 (log 16). -/
def Obligations.LoadImageCopiesAllOrNothing : Prop :=
  ∀ (s : State) (bytes : List Byte) (off : Word), Memory.wf s.mem →
    (s.cfg.memSize < off.toNat + bytes.length → s.loadImage bytes off = .error (.outOfBounds off)) ∧
    (off.toNat + bytes.length ≤ s.cfg.memSize → ∃ t, s.loadImage bytes off = .ok t ∧
      (∀ i (h : i < bytes.length), Memory.readByte t.mem (off.toNat + i) = bytes[i]) ∧
      (∀ x, x < off.toNat ∨ off.toNat + bytes.length ≤ x → Memory.readByte t.mem x = Memory.readByte s.mem x) ∧
      SameRegs s t ∧ t.pc = s.pc ∧ t.cfg = s.cfg)

/-! ## The step -/

/-- 44_sequencer.md R140: when the four bytes at a fetchable pc decode to an instruction, the step is that instruction's
execution, and nothing is added around it. -/
def Obligations.StepRunsTheDecodedInstruction : Prop :=
  ∀ (s : State) (i : Instr), s.pc.toNat + 4 ≤ s.cfg.memSize → s.pc.toNat % 4 = 0 →
    decodeBytes s.cfg.branchOpcode (Memory.readByte s.mem s.pc.toNat) (Memory.readByte s.mem (s.pc.toNat + 1))
      (Memory.readByte s.mem (s.pc.toNat + 2)) (Memory.readByte s.mem (s.pc.toNat + 3)) = .ok i →
    step s = exec i s

/-- A word placed by `withFetchWord` is the one the next step fetches; every byte outside its four is unchanged. How a word
comes to the pc is this model's DESIGN CHOICE, in place of the host's load (log 24; 70_reset_and_hazards.md R192). -/
def Obligations.APlacedWordIsFetchedNext : Prop :=
  ∀ (s : State) (w : Nat), MachineInv s → w < 2 ^ 32 →
    (s.withFetchWord 32 w).fetch = .ok (BitVec.ofNat 32 w) ∧ MachineInv (s.withFetchWord 32 w) ∧
    SameRegs s (s.withFetchWord 32 w) ∧ SameBytesOutside (s.withFetchWord 32 w).pc s (s.withFetchWord 32 w) ∧
    (s.pc.toNat + 4 ≤ s.cfg.memSize → s.pc.toNat % 4 = 0 → (s.withFetchWord 32 w).pc = s.pc)

/-- 44_sequencer.md R141: fetch, decode, execute, and the first phase that fails ends the step with its error. -/
def Obligations.FirstFailingPhaseEndsTheStep : Prop :=
  ∀ (s : State),
    (∀ e, s.fetch = .error e → step s = .fault e) ∧
    (∀ w, s.fetch = .ok w → (∀ i, decode s.cfg.branchOpcode w ≠ .ok i) → step s = .fault (.unknownInstruction w)) ∧
    (∀ w i, s.fetch = .ok w → decode s.cfg.branchOpcode w = .ok i → step s = exec i s)

/-- 60_exceptions.md R170: the first failing check, in the rule's order of five, is the error of the step, and a step that
passes all five completes. The order of the fetch's checks and of the data checks is decisions D9 and D10. -/
def Obligations.StepReportsTheFirstFailingCheck : Prop :=
  ∀ (s : State),
    if s.cfg.memSize < s.pc.toNat + 4 then step s = .fault (.fetchOutOfBounds s.pc)
    else if s.pc.toNat % 4 ≠ 0 then step s = .fault (.misalignedAccess s.pc)
    else match decode s.cfg.branchOpcode (Memory.readWord s.mem s.pc.toNat) with
      | .error _ => step s = .fault (.unknownInstruction (Memory.readWord s.mem s.pc.toNat))
      | .ok i =>
        match dataAddress s i with
        | none => ∃ t, step s = .next t
        | some a =>
          if a.toNat % 4 ≠ 0 then step s = .fault (.misalignedAccess a)
          else if s.cfg.memSize < a.toNat + 4 then step s = .fault (.outOfBounds a)
          else ∃ t, step s = .next t

/-- 40_decoder.md R104 and 70_reset_and_hazards.md R198: the execution unit has no arm that can fail to match, so every
instruction and every step answers with a next state or with a named error, never with a refusal. -/
def Obligations.NothingIsEverRefused : Prop :=
  (∀ (i : Instr) (s : State), (∃ t, exec i s = .next t) ∨ (∃ e, exec i s = .fault e)) ∧
  (∀ s : State, (∃ t, step s = .next t) ∨ (∃ e, step s = .fault e))

/-- 10_state.md R33 and 44_sequencer.md R144: the trace record says what the step did. A decoded step, completed or not,
shows its decoded form and the registers it reads; a step that fails in fetch or decode shows no decoded form. Its layout
is decision D20. Four clauses are this model's DESIGN CHOICES, which R33 and R144 do not state (log 21): no register is
shown as written for `rd = 0`; each register read stands once, in field order (`regsRead`); a failing LW or SW still shows
the registers it read; a step that does not decode shows none. -/
def Obligations.TraceRecordTellsTheStep : Prop :=
  ∀ (s : State),
    (traceStep s).pcBefore = s.pc ∧
    (∀ w, (traceStep s).word = some w ↔ s.fetch = .ok w) ∧
    (∀ e, (traceStep s).error = some e ↔ step s = .fault e) ∧
    (∀ i, s.fetchDecode = .ok i → (traceStep s).decoded = decodedRecord i ∧ (traceStep s).regsRead = regsRead i) ∧
    ((∀ i, s.fetchDecode ≠ .ok i) → (traceStep s).decoded = none ∧ (traceStep s).regsRead = []) ∧
    (∀ e, step s = .fault e → (traceStep s).pcAfter = s.pc ∧ (traceStep s).regWritten = none) ∧
    (∀ t, step s = .next t → (traceStep s).pcAfter = t.pc ∧
      (∀ r, (traceStep s).regWritten ≠ some r → t.readReg r = s.readReg r) ∧
      ∃ i, s.fetchDecode = .ok i ∧ ∀ r, (traceStep s).regWritten = some r ↔ regDest i = some r ∧ r ≠ 0#5)

/-! ## The whole machine -/

/-- 70_reset_and_hazards.md R191, under every parameter choice: after reset the pc, every register and every byte are 0.
The values are decisions D6, D7 and D8 of the spec (log 7, log 8, log 9). -/
def Obligations.ResetLeavesZeros : Prop :=
  State.reset = State.resetWith Config.default ∧
  ∀ (c : Config), (State.resetWith c).pc = 0#32 ∧ (∀ r, (State.resetWith c).readReg r = 0#32) ∧
    (∀ a, Memory.readByte (State.resetWith c).mem a = 0x00#8) ∧ (State.resetWith c).cfg = c

/-- The invariant `MachineInv` holds at reset, under the default and under every admitted choice of the parameters. -/
def Obligations.ResetHasTheInvariant : Prop :=
  MachineInv State.reset ∧ ∀ (c : Config), c.valid → MachineInv (State.resetWith c)

/-- Every step keeps `MachineInv`: memory stays in canonical form and inside `0 .. MEM_SIZE-1` (10_state.md R23), the
hard-wired register's slot stays 0 (R12), the parameters stay admitted (R5, R190). -/
def Obligations.EveryStepKeepsTheInvariant : Prop :=
  ∀ (s t : State), MachineInv s → step s = .next t → MachineInv t

/-- Every host command keeps `MachineInv` (10_state.md R31), so every state a host can bring about has it. -/
def Obligations.EveryHostCommandKeepsTheInvariant : Prop :=
  ∀ (s : State) (cmd : HostCommand), MachineInv s → MachineInv (hostCommand s cmd).2

/-- 70_reset_and_hazards.md R190: the parameters "do not change afterwards", by any step or host command, reset included. -/
def Obligations.ParametersNeverChange : Prop :=
  (∀ (s t : State), step s = .next t → t.cfg = s.cfg) ∧
  (∀ (s : State) (cmd : HostCommand), (hostCommand s cmd).2.cfg = s.cfg)

/-- 60_exceptions.md R161: a failing step or host command changes nothing; a failing run leaves the state before the
failing step. -/
def Obligations.AnErrorChangesNothing : Prop :=
  (∀ (s t : State) (e : Fault) (cmd : HostCommand), (∀ n, cmd ≠ .run n) → hostCommand s cmd = (.error e, t) → t = s) ∧
  (∀ (s : State) (e : Fault), step s = .fault e → (hostCommand s .step).2 = s) ∧
  (∀ (s t : State) (e : Fault) (n : Nat), hostCommand s (.run n) = (.error e, t) → step t = .fault e)

/-! ## The run mode -/

/-- 44_sequencer.md R145: the two formulations of `run()` agree, for every amount of fuel. -/
def Obligations.RunFormulationsAgree : Prop :=
  ∀ (n : Nat) (s : State), s.cfg.valid → runFor n s = runByStep n s

/-- 44_sequencer.md R148: a run that ends in an error leaves the state before the failing step, reached by the completed
steps before it; the failing step's effects are absent. -/
def Obligations.AFailedRunStopsBeforeTheFailingStep : Prop :=
  ∀ (s t : State) (e : Fault), FailsIn s e t → Steps s t ∧ step t = .fault e ∧
    (∀ p, e = .fetchOutOfBounds p → t.pc = p)

/-- 44_sequencer.md R146, 70_reset_and_hazards.md R195 (a): a halted run stands at the sentinel, which has done nothing.
That the pc stays is decision D5 (log 6). -/
def Obligations.AHaltedRunStandsAtTheSentinel : Prop :=
  ∀ (s t : State), HaltsIn s t → Steps s t ∧ ∃ w, t.fetch = .ok w ∧ w.extractLsb' 0 7 = 0x00#7 ∧
    (s.cfg.valid → step t = .fault (.unknownInstruction w))

/-- 70_reset_and_hazards.md R195: a run halts, fails or goes on for ever, exactly one of the three, and the final state
and error are determined. -/
def Obligations.ARunEndsInExactlyOneWay : Prop :=
  ∀ (s : State),
    ((∃ t, HaltsIn s t) ∨ (∃ e t, FailsIn s e t) ∨ RunsForever s) ∧
    (∀ t u, HaltsIn s t → HaltsIn s u → t = u) ∧
    (∀ e t e' u, FailsIn s e t → FailsIn s e' u → e = e' ∧ t = u) ∧
    (∀ t e u, ¬(HaltsIn s t ∧ FailsIn s e u)) ∧
    (∀ t, ¬(HaltsIn s t ∧ RunsForever s)) ∧
    (∀ e t, ¬(FailsIn s e t ∧ RunsForever s))

/-- 44_sequencer.md R149: a run issued again after a halt or an error gives the same outcome at once. -/
def Obligations.AnEndedRunRepeatsItsOutcome : Prop :=
  (∀ (s t : State), HaltsIn s t → ∀ n, runFor (n + 1) t = .halted t) ∧
  (∀ (s t : State) (e : Fault), FailsIn s e t → ∀ n, runFor (n + 1) t = .error e t)

/-- 93_implementation_defined.md U8, 70_reset_and_hazards.md R197: a run reports no error exactly when every state it passes
through completes its step or stands at the sentinel, whose single step fails without an error of the run (R142). -/
def Obligations.ASafeRunMeetsNoFailingStep : Prop :=
  ∀ (s : State), s.cfg.valid →
    (SafeRun s ↔ ∀ t, Steps s t → (∃ u, step t = .next u) ∨ (∃ w, t.fetch = .ok w ∧ isSentinelWord w = true))

/-- 44_sequencer.md R147: "the shortest is a taken BEQ with offset 0", which makes a run never end. -/
def Obligations.ABranchToItselfRunsForever : Prop :=
  ∀ (s : State) (rs1 rs2 : RegIdx), s.cfg.valid → s.fetchDecode = .ok (.beq rs1 rs2 0#13) →
    s.readReg rs1 = s.readReg rs2 → step s = .next s ∧ RunsForever s

/-! ## The decoded record -/

/-- 40_decoder.md R101 and 10_state.md R16: what the words of each row decode to for the trace and the register file, which
is the variant's fields at their places in the word, the immediates extended by the formula of 00_scope.md section 4, the
function codes that R102 checks, the registers read and the `rd` field. The branch opcode is decision D1 (log 2), the
`funct3` values of ADDI, LW, SW and BEQ decision D2 (log 3), the B-immediate's positions log 25. -/
def Obligations.DecodedRecordFollowsTheTable : Prop :=
  ∀ (c : Config) (w : Word), c.valid →
    let rd := w.extractLsb' 7 5
    let rs1 := w.extractLsb' 15 5
    let rs2 := w.extractLsb' 20 5
    let extI := BitVec.ofNat 32 (sextNat 12 (w.extractLsb' 20 12).toNat)
    let extS := BitVec.ofNat 32 (sextNat 12 (w.extractLsb' 25 7 ++ w.extractLsb' 7 5).toNat)
    let extB := BitVec.ofNat 32 (sextNat 13
      (w.extractLsb' 31 1 ++ w.extractLsb' 7 1 ++ w.extractLsb' 25 6 ++ w.extractLsb' 8 4 ++ 0#1).toNat)
    (w &&& 0xFE00707F#32 = 0x00000033#32 →
      DecodesWith c.branchOpcode w (.rType .add rd rs1 rs2 0#3 0x00#7) [rs1, rs2] (some rd)) ∧
    (w &&& 0xFE00707F#32 = 0x40000033#32 →
      DecodesWith c.branchOpcode w (.rType .sub rd rs1 rs2 0#3 0x20#7) [rs1, rs2] (some rd)) ∧
    (w &&& 0x0000707F#32 = 0x00000013#32 →
      DecodesWith c.branchOpcode w (.iType .addi rd rs1 extI 0#3) [rs1] (some rd)) ∧
    (w &&& 0x0000707F#32 = 0x00002003#32 →
      DecodesWith c.branchOpcode w (.iType .lw rd rs1 extI 2#3) [rs1] (some rd)) ∧
    (w &&& 0x0000707F#32 = 0x00002023#32 →
      DecodesWith c.branchOpcode w (.sType rs1 rs2 extS 2#3) [rs1, rs2] none) ∧
    (w &&& 0x0000007F#32 = 0x00000037#32 →
      DecodesWith c.branchOpcode w (.uType rd (w &&& 0xFFFFF000#32)) [] (some rd)) ∧
    (w &&& 0x0000707F#32 = c.branchOpcode.setWidth 32 →
      DecodesWith c.branchOpcode w (.bType rs1 rs2 extB 0#3) [rs1, rs2] none)
end

