-- ==== Sys2Proof/Laws/Encode.lean ====
section
/-! SUPPORT. The fields of an encoded word are the fields it was encoded from, format by format, and a word is made of
its fields. -/

namespace Sys2Proof

/-- Two words are equal if their bits are; the form in which the lemmas of this file are proved. -/
theorem field_ext {n : Nat} {x y : BitVec n} (h : ∀ i, i < n → x.getLsbD i = y.getLsbD i) : x = y :=
  BitVec.eq_of_getLsbD_eq fun i hi => h i hi

section R
variable (f7 : BitVec 7) (rs2 rs1 rd : RegIdx) (f3 : BitVec 3) (op : BitVec 7)

@[simp] theorem opcodeField_encodeR : opcodeField (encodeR f7 rs2 rs1 f3 rd op) = op := by
  refine field_ext fun i hi => ?_
  simp only [opcodeField, encodeR, BitVec.getLsbD_append, BitVec.getLsbD_extractLsb']
  grind
@[simp] theorem rdField_encodeR : rdField (encodeR f7 rs2 rs1 f3 rd op) = rd := by
  refine field_ext fun i hi => ?_
  simp only [rdField, encodeR, BitVec.getLsbD_append, BitVec.getLsbD_extractLsb']
  grind
@[simp] theorem funct3Field_encodeR : funct3Field (encodeR f7 rs2 rs1 f3 rd op) = f3 := by
  refine field_ext fun i hi => ?_
  simp only [funct3Field, encodeR, BitVec.getLsbD_append, BitVec.getLsbD_extractLsb']
  grind
@[simp] theorem rs1Field_encodeR : rs1Field (encodeR f7 rs2 rs1 f3 rd op) = rs1 := by
  refine field_ext fun i hi => ?_
  simp only [rs1Field, encodeR, BitVec.getLsbD_append, BitVec.getLsbD_extractLsb']
  grind
@[simp] theorem rs2Field_encodeR : rs2Field (encodeR f7 rs2 rs1 f3 rd op) = rs2 := by
  refine field_ext fun i hi => ?_
  simp only [rs2Field, encodeR, BitVec.getLsbD_append, BitVec.getLsbD_extractLsb']
  grind
@[simp] theorem funct7Field_encodeR : funct7Field (encodeR f7 rs2 rs1 f3 rd op) = f7 := by
  refine field_ext fun i hi => ?_
  simp only [funct7Field, encodeR, BitVec.getLsbD_append, BitVec.getLsbD_extractLsb']
  grind
end R

section I
variable (imm : BitVec 12) (rs1 rd : RegIdx) (f3 : BitVec 3) (op : BitVec 7)

/-- An I-type word is an R-type word whose upper two fields are the immediate. -/
theorem encodeI_eq_encodeR :
    encodeI imm rs1 f3 rd op = encodeR (imm.extractLsb' 5 7) (imm.extractLsb' 0 5) rs1 f3 rd op := by
  refine field_ext fun i hi => ?_
  simp only [encodeI, encodeR, BitVec.getLsbD_append, BitVec.getLsbD_extractLsb']
  grind
@[simp] theorem opcodeField_encodeI : opcodeField (encodeI imm rs1 f3 rd op) = op := by
  rw [encodeI_eq_encodeR, opcodeField_encodeR]
@[simp] theorem rdField_encodeI : rdField (encodeI imm rs1 f3 rd op) = rd := by
  rw [encodeI_eq_encodeR, rdField_encodeR]
@[simp] theorem funct3Field_encodeI : funct3Field (encodeI imm rs1 f3 rd op) = f3 := by
  rw [encodeI_eq_encodeR, funct3Field_encodeR]
@[simp] theorem rs1Field_encodeI : rs1Field (encodeI imm rs1 f3 rd op) = rs1 := by
  rw [encodeI_eq_encodeR, rs1Field_encodeR]
@[simp] theorem immIField_encodeI : immIField (encodeI imm rs1 f3 rd op) = imm := by
  refine field_ext fun i hi => ?_
  simp only [immIField, encodeI, BitVec.getLsbD_append, BitVec.getLsbD_extractLsb']
  grind
end I

section S
variable (imm : BitVec 12) (rs2 rs1 : RegIdx) (f3 : BitVec 3) (op : BitVec 7)

/-- An S-type word is an R-type word whose `funct7` and `rd` fields are the immediate's two slices. -/
theorem encodeS_eq_encodeR :
    encodeS imm rs2 rs1 f3 op = encodeR (imm.extractLsb' 5 7) rs2 rs1 f3 (imm.extractLsb' 0 5) op := rfl
@[simp] theorem opcodeField_encodeS : opcodeField (encodeS imm rs2 rs1 f3 op) = op := by
  rw [encodeS_eq_encodeR, opcodeField_encodeR]
@[simp] theorem funct3Field_encodeS : funct3Field (encodeS imm rs2 rs1 f3 op) = f3 := by
  rw [encodeS_eq_encodeR, funct3Field_encodeR]
@[simp] theorem rs1Field_encodeS : rs1Field (encodeS imm rs2 rs1 f3 op) = rs1 := by
  rw [encodeS_eq_encodeR, rs1Field_encodeR]
@[simp] theorem rs2Field_encodeS : rs2Field (encodeS imm rs2 rs1 f3 op) = rs2 := by
  rw [encodeS_eq_encodeR, rs2Field_encodeR]
@[simp] theorem immSField_encodeS : immSField (encodeS imm rs2 rs1 f3 op) = imm := by
  refine field_ext fun i hi => ?_
  simp only [immSField, encodeS, BitVec.getLsbD_append, BitVec.getLsbD_extractLsb']
  grind
end S

section U
variable (imm20 : BitVec 20) (rd : RegIdx) (op : BitVec 7)

@[simp] theorem opcodeField_encodeU : opcodeField (encodeU imm20 rd op) = op := by
  refine field_ext fun i hi => ?_
  simp only [opcodeField, encodeU, BitVec.getLsbD_append, BitVec.getLsbD_extractLsb']
  grind
@[simp] theorem rdField_encodeU : rdField (encodeU imm20 rd op) = rd := by
  refine field_ext fun i hi => ?_
  simp only [rdField, encodeU, BitVec.getLsbD_append, BitVec.getLsbD_extractLsb']
  grind
@[simp] theorem immUField_encodeU : immUField (encodeU imm20 rd op) = imm20 := by
  refine field_ext fun i hi => ?_
  simp only [immUField, encodeU, BitVec.getLsbD_append, BitVec.getLsbD_extractLsb']
  grind
end U

section B
variable (off : BitVec 13) (rs2 rs1 : RegIdx) (f3 : BitVec 3) (op : BitVec 7)

/-- A B-type word is an R-type word whose `funct7` and `rd` fields hold the offset's slices. -/
theorem encodeB_eq_encodeR :
    encodeB off rs2 rs1 f3 op =
      encodeR (off.extractLsb' 12 1 ++ off.extractLsb' 5 6) rs2 rs1 f3
        (off.extractLsb' 1 4 ++ off.extractLsb' 11 1) op := by
  refine field_ext fun i hi => ?_
  simp only [encodeB, encodeR, BitVec.getLsbD_append, BitVec.getLsbD_extractLsb']
  grind
@[simp] theorem opcodeField_encodeB : opcodeField (encodeB off rs2 rs1 f3 op) = op := by
  rw [encodeB_eq_encodeR, opcodeField_encodeR]
@[simp] theorem funct3Field_encodeB : funct3Field (encodeB off rs2 rs1 f3 op) = f3 := by
  rw [encodeB_eq_encodeR, funct3Field_encodeR]
@[simp] theorem rs1Field_encodeB : rs1Field (encodeB off rs2 rs1 f3 op) = rs1 := by
  rw [encodeB_eq_encodeR, rs1Field_encodeR]
@[simp] theorem rs2Field_encodeB : rs2Field (encodeB off rs2 rs1 f3 op) = rs2 := by
  rw [encodeB_eq_encodeR, rs2Field_encodeR]
/-- An even offset comes back whole (30_encoding.md R85). -/
theorem immBField_encodeB (h : off[0] = false) : immBField (encodeB off rs2 rs1 f3 op) = off := by
  rw [← BitVec.getLsbD_eq_getElem] at h
  refine field_ext fun i hi => ?_
  simp only [immBField, encodeB, BitVec.getLsbD_append, BitVec.getLsbD_extractLsb']
  grind
/-- A decoded offset is even, "per the architecture's instruction-alignment convention". -/
@[simp] theorem immBField_even (w : Word) : (immBField w)[0] = false := by
  rw [← BitVec.getLsbD_eq_getElem, immBField, BitVec.getLsbD_append]
  rfl
end B

section Sentinel
variable (ignored : BitVec 25) (op : BitVec 7)

@[simp] theorem opcodeField_ignored : opcodeField (ignored ++ op) = op := by
  refine field_ext fun i hi => ?_
  simp only [opcodeField, BitVec.getLsbD_append, BitVec.getLsbD_extractLsb']
  grind
@[simp] theorem ignoredField_ignored : ignoredField (ignored ++ op) = ignored := by
  refine field_ext fun i hi => ?_
  simp only [ignoredField, BitVec.getLsbD_append, BitVec.getLsbD_extractLsb']
  grind
end Sentinel

/-! ## A word is made of its fields -/

/-- Every bit of a word is in one of R-type's six fields (30_encoding.md R77). -/
theorem encodeR_fields (w : Word) :
    encodeR (funct7Field w) (rs2Field w) (rs1Field w) (funct3Field w) (rdField w) (opcodeField w) = w := by
  refine field_ext fun i hi => ?_
  simp only [encodeR, funct7Field, rs2Field, rs1Field, funct3Field, rdField, opcodeField, BitVec.getLsbD_append,
    BitVec.getLsbD_extractLsb']
  grind
theorem encodeI_fields (w : Word) :
    encodeI (immIField w) (rs1Field w) (funct3Field w) (rdField w) (opcodeField w) = w := by
  refine field_ext fun i hi => ?_
  simp only [encodeI, immIField, rs1Field, funct3Field, rdField, opcodeField, BitVec.getLsbD_append,
    BitVec.getLsbD_extractLsb']
  grind
theorem encodeS_fields (w : Word) :
    encodeS (immSField w) (rs2Field w) (rs1Field w) (funct3Field w) (opcodeField w) = w := by
  refine field_ext fun i hi => ?_
  simp only [encodeS, immSField, rs2Field, rs1Field, funct3Field, opcodeField, BitVec.getLsbD_append,
    BitVec.getLsbD_extractLsb']
  grind
theorem encodeU_fields (w : Word) : encodeU (immUField w) (rdField w) (opcodeField w) = w := by
  refine field_ext fun i hi => ?_
  simp only [encodeU, immUField, rdField, opcodeField, BitVec.getLsbD_append, BitVec.getLsbD_extractLsb']
  grind
theorem encodeB_fields (w : Word) :
    encodeB (immBField w) (rs2Field w) (rs1Field w) (funct3Field w) (opcodeField w) = w := by
  refine field_ext fun i hi => ?_
  simp only [encodeB, immBField, rs2Field, rs1Field, funct3Field, opcodeField, BitVec.getLsbD_append,
    BitVec.getLsbD_extractLsb']
  grind
theorem ignored_fields (w : Word) : ignoredField w ++ opcodeField w = w := by
  refine field_ext fun i hi => ?_
  simp only [ignoredField, opcodeField, BitVec.getLsbD_append, BitVec.getLsbD_extractLsb']
  grind

end Sys2Proof
end

