-- ==== Sys2Proof/Laws/Decode.lean ====
section
/-! SUPPORT. The masks of the opcode map in terms of fields, what the decoder's answers say about the word, and the
run mode's recogniser. -/

namespace Sys2Proof

/-! ## Masks -/

/-- Masking goes field by field. -/
theorem encodeR_and (f f' : BitVec 7) (a a' b b' d d' : RegIdx) (g g' : BitVec 3) (o o' : BitVec 7) :
    encodeR f a b g d o &&& encodeR f' a' b' g' d' o' =
      encodeR (f &&& f') (a &&& a') (b &&& b') (g &&& g') (d &&& d') (o &&& o') := by
  refine field_ext fun i hi => ?_
  simp only [encodeR, BitVec.getLsbD_append, BitVec.getLsbD_and]
  grind

/-- R-type words are equal exactly when their fields are. -/
theorem encodeR_inj {f f' : BitVec 7} {a a' b b' d d' : RegIdx} {g g' : BitVec 3} {o o' : BitVec 7} :
    encodeR f a b g d o = encodeR f' a' b' g' d' o' ↔ f = f' ∧ a = a' ∧ b = b' ∧ g = g' ∧ d = d' ∧ o = o' := by
  refine ⟨fun h => ⟨?_, ?_, ?_, ?_, ?_, ?_⟩, ?_⟩
  · simpa using congrArg funct7Field h
  · simpa using congrArg rs2Field h
  · simpa using congrArg rs1Field h
  · simpa using congrArg funct3Field h
  · simpa using congrArg rdField h
  · simpa using congrArg opcodeField h
  · rintro ⟨rfl, rfl, rfl, rfl, rfl, rfl⟩; rfl

theorem and_ones7 (x : BitVec 7) : x &&& 127#7 = x := BitVec.and_allOnes
theorem and_ones3 (x : BitVec 3) : x &&& 7#3 = x := BitVec.and_allOnes

/-- The mask of ADD and SUB keeps `funct7`, `funct3` and the opcode. -/
theorem and_maskR (w : Word) :
    w &&& 0xFE00707F#32 = encodeR (funct7Field w) 0#5 0#5 (funct3Field w) 0#5 (opcodeField w) := by
  conv_lhs => rw [← encodeR_fields w, show (0xFE00707F#32 : Word) = encodeR 0x7F#7 0#5 0#5 7#3 0#5 0x7F#7 from rfl]
  rw [encodeR_and]
  simp [and_ones7, and_ones3]

/-- The mask of ADDI, LW, SW and BEQ keeps `funct3` and the opcode. -/
theorem and_maskF3 (w : Word) : w &&& 0x0000707F#32 = encodeR 0#7 0#5 0#5 (funct3Field w) 0#5 (opcodeField w) := by
  conv_lhs => rw [← encodeR_fields w, show (0x0000707F#32 : Word) = encodeR 0#7 0#5 0#5 7#3 0#5 0x7F#7 from rfl]
  rw [encodeR_and]
  simp [and_ones7, and_ones3]

/-- The mask of LUI and of the sentinel keeps the opcode. -/
theorem and_maskOp (w : Word) : w &&& 0x0000007F#32 = encodeR 0#7 0#5 0#5 0#3 0#5 (opcodeField w) := by
  conv_lhs => rw [← encodeR_fields w, show (0x0000007F#32 : Word) = encodeR 0#7 0#5 0#5 0#3 0#5 0x7F#7 from rfl]
  rw [encodeR_and]
  simp [and_ones7]

/-- BEQ's match value under any branch opcode. -/
theorem setWidth_branchOpcode (bop : BitVec 7) : bop.setWidth 32 = encodeR 0#7 0#5 0#5 0#3 0#5 bop := by
  refine field_ext fun i hi => ?_
  simp only [encodeR, BitVec.getLsbD_append, BitVec.getLsbD_setWidth]
  grind

/-! ## The decoder's answers -/

/-- What a decoded instruction says of the word: one case per row, with the codes the decoder checked. -/
theorem decode_ok_cases {bop : BitVec 7} {w : Word} {i : Instr} (h : decode bop w = .ok i) :
    (opcodeField w = 0x33#7 ∧ funct3Field w = 0#3 ∧ funct7Field w = 0x00#7 ∧
      i = .add (rdField w) (rs1Field w) (rs2Field w)) ∨
    (opcodeField w = 0x33#7 ∧ funct3Field w = 0#3 ∧ funct7Field w = 0x20#7 ∧
      i = .sub (rdField w) (rs1Field w) (rs2Field w)) ∨
    (opcodeField w = 0x13#7 ∧ funct3Field w = 0#3 ∧ i = .addi (rdField w) (rs1Field w) (immIField w)) ∨
    (opcodeField w = 0x03#7 ∧ funct3Field w = 2#3 ∧ i = .lw (rdField w) (rs1Field w) (immIField w)) ∨
    (opcodeField w = 0x23#7 ∧ funct3Field w = 2#3 ∧ i = .sw (rs1Field w) (rs2Field w) (immSField w)) ∨
    (opcodeField w = 0x37#7 ∧ i = .lui (rdField w) (immUField w)) ∨
    (opcodeField w = bop ∧ funct3Field w = 0#3 ∧ i = .beq (rs1Field w) (rs2Field w) (immBField w)) := by
  unfold decode unknown at h
  split at h
  · split at h
    · cases h; simp [*]
    · split at h
      · cases h; simp [*]
      · cases h
  · split at h
    · split at h
      · cases h; simp [*]
      · cases h
    · split at h
      · split at h
        · cases h; simp [*]
        · cases h
      · split at h
        · split at h
          · cases h; simp [*]
          · cases h
        · split at h
          · cases h; simp [*]
          · split at h
            · split at h
              · cases h; simp [*]
              · cases h
            · cases h

/-- The decoder never answers with the sentinel (40_decoder.md R105). -/
theorem decode_not_sentinel {bop : BitVec 7} {w : Word} {i : Instr} (h : decode bop w = .ok i) : i.isSentinel = false := by
  obtain ⟨-, -, -, rfl⟩ | ⟨-, -, -, rfl⟩ | ⟨-, -, rfl⟩ | ⟨-, -, rfl⟩ | ⟨-, -, rfl⟩ | ⟨-, rfl⟩ | ⟨-, -, rfl⟩ :=
    decode_ok_cases h <;> rfl

/-- A branch opcode that R5 admits differs from every other opcode. -/
theorem Config.valid.branchOpcode_ne {c : Config} (h : c.valid) :
    c.branchOpcode ≠ 0x00#7 ∧ c.branchOpcode ≠ 0x03#7 ∧ c.branchOpcode ≠ 0x13#7 ∧ c.branchOpcode ≠ 0x23#7 ∧
      c.branchOpcode ≠ 0x33#7 ∧ c.branchOpcode ≠ 0x37#7 := by
  have := h.2.2.2
  simp only [Config.takenOpcodes, List.mem_cons, not_or, List.not_mem_nil, not_false_eq_true, and_true] at this
  tauto

theorem Config.default_valid : Config.default.valid := by decide

/-- A word with the sentinel's opcode is unknown to the decoder (40_decoder.md R105). -/
theorem decode_sentinelWord {c : Config} (hc : c.valid) {w : Word} (h : isSentinelWord w = true) :
    decode c.branchOpcode w = .error (.unknownInstruction w) := by
  have h0 : opcodeField w = 0x00#7 := by simpa [isSentinelWord] using h
  have hb : ¬0x00#7 = c.branchOpcode := fun e => hc.branchOpcode_ne.1 e.symm
  unfold decode unknown
  rw [h0, if_neg (by decide), if_neg (by decide), if_neg (by decide), if_neg (by decide), if_neg (by decide), if_neg hb]

/-- The recogniser reads a sentinel word as HALT and every other word as the decoder does. -/
theorem recognise_eq (bop : BitVec 7) (w : Word) :
    recognise bop w = if isSentinelWord w = true then .ok (.halt (ignoredField w)) else decode bop w := rfl

end Sys2Proof
end

