-- ==== Sys2Proof/Laws/State.lean ====
section
/-! SUPPORT. One lemma per field per update of the state, and the register file's read-after-write laws. -/

namespace Sys2Proof.Machine

@[simp] theorem State.setPc_regs (s : State) (t : Word) : (s.setPc t).regs = s.regs := rfl
@[simp] theorem State.setPc_mem (s : State) (t : Word) : (s.setPc t).mem = s.mem := rfl
@[simp] theorem State.setPc_pc (s : State) (t : Word) : (s.setPc t).pc = t := rfl
@[simp] theorem State.setPc_cfg (s : State) (t : Word) : (s.setPc t).cfg = s.cfg := rfl

@[simp] theorem State.setMem_regs (s : State) (m : Memory) : (s.setMem m).regs = s.regs := rfl
@[simp] theorem State.setMem_mem (s : State) (m : Memory) : (s.setMem m).mem = m := rfl
@[simp] theorem State.setMem_pc (s : State) (m : Memory) : (s.setMem m).pc = s.pc := rfl
@[simp] theorem State.setMem_cfg (s : State) (m : Memory) : (s.setMem m).cfg = s.cfg := rfl

@[simp] theorem State.writeReg_mem (s : State) (r : RegIdx) (v : Word) : (s.writeReg r v).mem = s.mem := by
  unfold State.writeReg; split <;> rfl
@[simp] theorem State.writeReg_pc (s : State) (r : RegIdx) (v : Word) : (s.writeReg r v).pc = s.pc := by
  unfold State.writeReg; split <;> rfl
@[simp] theorem State.writeReg_cfg (s : State) (r : RegIdx) (v : Word) : (s.writeReg r v).cfg = s.cfg := by
  unfold State.writeReg; split <;> rfl
@[simp] theorem State.writeReg_zero (s : State) (v : Word) : s.writeReg 0#5 v = s := rfl

/-- A register write never touches slot 0 of the stored vector. -/
@[simp] theorem State.writeReg_slot_zero (s : State) (r : RegIdx) (v : Word) :
    (s.writeReg r v).regs[0] = s.regs[0] := by
  unfold State.writeReg
  split
  · rfl
  · rename_i h
    exact Vector.getElem_set_ne r.isLt (by decide) fun e => h (BitVec.eq_of_toNat_eq (by simpa using e))

@[simp] theorem State.resetWith_regs (c : Config) : (State.resetWith c).regs = Vector.replicate 32 0#32 := rfl
@[simp] theorem State.resetWith_mem (c : Config) : (State.resetWith c).mem = [] := rfl
@[simp] theorem State.resetWith_pc (c : Config) : (State.resetWith c).pc = 0#32 := rfl
@[simp] theorem State.resetWith_cfg (c : Config) : (State.resetWith c).cfg = c := rfl

@[simp] theorem State.readReg_zero (s : State) : s.readReg 0#5 = 0#32 := rfl
@[simp] theorem State.readReg_setPc (s : State) (t : Word) (r : RegIdx) : (s.setPc t).readReg r = s.readReg r := rfl
@[simp] theorem State.readReg_setMem (s : State) (m : Memory) (r : RegIdx) : (s.setMem m).readReg r = s.readReg r := rfl

/-- What a register reads as after a write: the written value at the written register, unless it is register 0. -/
theorem State.readReg_writeReg (s : State) (r q : RegIdx) (v : Word) :
    (s.writeReg r v).readReg q = if q = r ∧ q ≠ 0#5 then v else s.readReg q := by
  by_cases hq : q = 0#5
  · simp [hq]
  by_cases hr : r = 0#5
  · simp [hr, hq]
  by_cases h : q = r
  · subst h; simp [State.writeReg, State.readReg, hq]
  · have hn : r.toNat ≠ q.toNat := fun e => h (BitVec.eq_of_toNat_eq e.symm)
    simp [State.writeReg, State.readReg, hq, hr, h, hn]

theorem State.readReg_writeReg_self (s : State) (r : RegIdx) (v : Word) (h : r ≠ 0#5) :
    (s.writeReg r v).readReg r = v := by simp [State.readReg_writeReg, h]

theorem State.readReg_writeReg_ne (s : State) (r q : RegIdx) (v : Word) (h : q ≠ r) :
    (s.writeReg r v).readReg q = s.readReg q := by simp [State.readReg_writeReg, h]

end Sys2Proof.Machine
end

