-- ==== Sys2Proof/Laws/Memory.lean ====
section
/-! SUPPORT. Memory: every write keeps the canonical form and the address range, and the read-after-write laws. -/

namespace Sys2Proof.Machine

/-! ## The canonical form -/

@[simp] theorem Memory.wf_nil : Memory.wf [] := ⟨.nil, by simp⟩

/-- Reset memory has the canonical form. -/
theorem State.reset_mem_wf : Memory.wf State.reset.mem := Memory.wf_nil

theorem Memory.wf_cons {k : Nat} {b : Byte} {m : Memory} :
    Memory.wf ((k, b) :: m) ↔ (∀ c ∈ m, k < c.1) ∧ b ≠ unlistedByte ∧ Memory.wf m := by
  simp only [Memory.wf, List.pairwise_cons, List.mem_cons, forall_eq_or_imp]
  tauto

theorem Memory.wf_consByte {a : Nat} {v : Byte} {m : Memory} (ha : ∀ c ∈ m, a < c.1) (hm : Memory.wf m) :
    Memory.wf (Memory.consByte a v m) := by
  unfold Memory.consByte
  split
  · exact hm
  · exact Memory.wf_cons.2 ⟨ha, ‹_›, hm⟩

theorem Memory.mem_consByte {a : Nat} {v : Byte} {m : Memory} {c : Host.Cell} (h : c ∈ Memory.consByte a v m) :
    c = (a, v) ∨ c ∈ m := by
  unfold Memory.consByte at h
  split at h
  · exact .inr h
  · simpa using h

/-- A write adds no cell but the one at its address. -/
theorem Memory.mem_writeByte {m : Memory} {a : Nat} {v : Byte} {c : Host.Cell} (h : c ∈ Memory.writeByte m a v) :
    c = (a, v) ∨ c ∈ m := by
  induction m with
  | nil => exact Memory.mem_consByte h
  | cons d m ih =>
    obtain ⟨k, b⟩ := d
    simp only [Memory.writeByte] at h
    split at h
    · exact Memory.mem_consByte h
    · split at h
      · exact (Memory.mem_consByte h).imp_right (List.mem_cons_of_mem _)
      · rcases List.mem_cons.1 h with rfl | h
        · exact .inr (List.mem_cons_self ..)
        · exact (ih h).imp_right (List.mem_cons_of_mem _)

theorem Memory.wf_writeByte {m : Memory} (hm : Memory.wf m) (a : Nat) (v : Byte) : Memory.wf (Memory.writeByte m a v) := by
  induction m with
  | nil => exact Memory.wf_consByte (by simp) Memory.wf_nil
  | cons d m ih =>
    obtain ⟨k, b⟩ := d
    obtain ⟨hk, hb, hm'⟩ := Memory.wf_cons.1 hm
    simp only [Memory.writeByte]
    split
    · rename_i hlt
      refine Memory.wf_consByte (fun c hc => ?_) hm
      rcases List.mem_cons.1 hc with rfl | hc
      · exact hlt
      · exact hlt.trans (hk c hc)
    · split
      · rename_i heq
        exact Memory.wf_consByte (heq ▸ hk) hm'
      · rename_i hlt hne
        refine Memory.wf_cons.2 ⟨fun c hc => ?_, hb, ih hm'⟩
        rcases Memory.mem_writeByte hc with rfl | hc
        · simp only; omega
        · exact hk c hc

theorem Memory.wf_writeBytes {m : Memory} (hm : Memory.wf m) (a : Nat) (bs : List Byte) :
    Memory.wf (Memory.writeBytes m a bs) := by
  induction bs generalizing m a with
  | nil => exact hm
  | cons b bs ih => exact ih (Memory.wf_writeByte hm a b) (a + 1)

theorem Memory.wf_writeWord {m : Memory} (hm : Memory.wf m) (a : Nat) (v : Word) : Memory.wf (Memory.writeWord m a v) :=
  Memory.wf_writeBytes hm a _

/-! ## The address range -/

/-- A run of bytes that ends at or below `n` lists no address from `n` upwards. -/
theorem Memory.writeBytes_inRange {m : Memory} {n a : Nat} {bs : List Byte} (hm : ∀ c ∈ m, c.1 < n)
    (h : a + bs.length ≤ n) : ∀ c ∈ Memory.writeBytes m a bs, c.1 < n := by
  induction bs generalizing m a with
  | nil => exact hm
  | cons b bs ih =>
    rw [List.length_cons] at h
    refine ih (fun c hc => ?_) (by omega)
    rcases Memory.mem_writeByte hc with rfl | hc
    · simp only; omega
    · exact hm c hc

theorem Memory.writeWord_inRange {m : Memory} {n a : Nat} {v : Word} (hm : ∀ c ∈ m, c.1 < n) (h : a + 4 ≤ n) :
    ∀ c ∈ Memory.writeWord m a v, c.1 < n :=
  Memory.writeBytes_inRange hm (by simpa [bytesOfWord] using h)

/-! ## Read after write -/

/-- An address below every listed one reads as an unlisted byte. -/
theorem Memory.readByte_of_below {m : Memory} {a : Nat} (h : ∀ c ∈ m, a < c.1) : Memory.readByte m a = unlistedByte := by
  induction m with
  | nil => rfl
  | cons d m ih =>
    obtain ⟨k, b⟩ := d
    have hk : a < k := h _ (List.mem_cons_self ..)
    simp only [Memory.readByte, if_neg (show ¬k = a by omega)]
    exact ih fun c hc => h c (List.mem_cons_of_mem _ hc)

theorem Memory.readByte_consByte {a x : Nat} {v : Byte} {m : Memory} (h : ∀ c ∈ m, a < c.1) :
    Memory.readByte (Memory.consByte a v m) x = if x = a then v else Memory.readByte m x := by
  unfold Memory.consByte
  split
  · split
    · subst_vars; exact Memory.readByte_of_below h
    · rfl
  · simp only [Memory.readByte, eq_comm]

/-- The law of one byte: a read after a write gives the written byte at its address and the old byte elsewhere. -/
theorem Memory.readByte_writeByte {m : Memory} (hm : Memory.wf m) (a x : Nat) (v : Byte) :
    Memory.readByte (Memory.writeByte m a v) x = if x = a then v else Memory.readByte m x := by
  induction m with
  | nil => exact Memory.readByte_consByte (by simp)
  | cons d m ih =>
    obtain ⟨k, b⟩ := d
    obtain ⟨hk, -, hm'⟩ := Memory.wf_cons.1 hm
    simp only [Memory.writeByte]
    split
    · rename_i hlt
      refine Memory.readByte_consByte fun c hc => ?_
      rcases List.mem_cons.1 hc with rfl | hc
      · exact hlt
      · exact hlt.trans (hk c hc)
    · split
      · rename_i heq
        subst heq
        rw [Memory.readByte_consByte hk]
        simp only [Memory.readByte]
        grind
      · simp only [Memory.readByte, ih hm']
        grind

/-- The law of a run of bytes. -/
theorem Memory.readByte_writeBytes {m : Memory} (hm : Memory.wf m) (a x : Nat) (bs : List Byte) :
    Memory.readByte (Memory.writeBytes m a bs) x =
      if h : a ≤ x ∧ x - a < bs.length then bs[x - a]'h.2 else Memory.readByte m x := by
  induction bs generalizing m a with
  | nil => simp [Memory.writeBytes]
  | cons b bs ih =>
    simp only [Memory.writeBytes, ih (Memory.wf_writeByte hm a b), Memory.readByte_writeByte hm, List.length_cons]
    by_cases hx : x = a
    · subst hx; simp
    · by_cases hlt : a + 1 ≤ x
      · have e : x - a = (x - (a + 1)) + 1 := by omega
        simp [hx, e, hlt, show a ≤ x by omega]
      · simp [hx, hlt, show ¬a ≤ x by omega]

/-- Outside the four stored bytes a word store changes nothing. -/
theorem Memory.readByte_writeWord_outside {m : Memory} (hm : Memory.wf m) {a x : Nat} {v : Word}
    (h : x < a ∨ a + 4 ≤ x) : Memory.readByte (Memory.writeWord m a v) x = Memory.readByte m x := by
  rw [Memory.writeWord, Memory.readByte_writeBytes hm, dif_neg]
  simp only [bytesOfWord, List.length_cons, List.length_nil]
  omega

/-- Byte `i` of a stored word (20_memory.md R42). -/
theorem Memory.readByte_writeWord {m : Memory} (hm : Memory.wf m) (a : Nat) (v : Word) {i : Nat} (h : i < 4) :
    Memory.readByte (Memory.writeWord m a v) (a + i) = byteOfWord v i := by
  rw [Memory.writeWord, Memory.readByte_writeBytes hm, dif_pos (by simpa [bytesOfWord] using h)]
  simp only [Nat.add_sub_cancel_left, bytesOfWord]
  match i, h with
  | 0, _ => rfl
  | 1, _ => rfl
  | 2, _ => rfl
  | 3, _ => rfl

/-- The four bytes of a word, put together again, are the word. -/
theorem wordOfBytes_byteOfWord (v : Word) :
    wordOfBytes (byteOfWord v 0) (byteOfWord v 1) (byteOfWord v 2) (byteOfWord v 3) = v := by
  refine BitVec.eq_of_getLsbD_eq fun i hi => ?_
  simp only [wordOfBytes, byteOfWord, BitVec.getLsbD_append, BitVec.getLsbD_extractLsb']
  grind

/-- A word read at the address of a stored word gives the stored word (R47). -/
theorem Memory.readWord_writeWord {m : Memory} (hm : Memory.wf m) (a : Nat) (v : Word) :
    Memory.readWord (Memory.writeWord m a v) a = v := by
  have h0 := Memory.readByte_writeWord hm a v (show 0 < 4 by decide)
  rw [Nat.add_zero] at h0
  simp only [Memory.readWord, h0, Memory.readByte_writeWord hm a v (show 1 < 4 by decide),
    Memory.readByte_writeWord hm a v (show 2 < 4 by decide), Memory.readByte_writeWord hm a v (show 3 < 4 by decide),
    wordOfBytes_byteOfWord]

/-- A word read clear of a stored word gives what it gave before. -/
theorem Memory.readWord_writeWord_disjoint {m : Memory} (hm : Memory.wf m) {a x : Nat} {v : Word}
    (h : x + 4 ≤ a ∨ a + 4 ≤ x) : Memory.readWord (Memory.writeWord m a v) x = Memory.readWord m x := by
  unfold Memory.readWord
  rw [Memory.readByte_writeWord_outside hm (by omega), Memory.readByte_writeWord_outside hm (by omega),
    Memory.readByte_writeWord_outside hm (by omega), Memory.readByte_writeWord_outside hm (by omega)]

end Sys2Proof.Machine
end

