-- ==== Sys2Proof/Laws/Ops.lean ====
section
/-! SUPPORT. What each shared operation can do, said once; later proofs cite these and do not unfold the operations. -/

namespace Sys2Proof.Machine

/-! ## Checked access -/

theorem checkAccess_ok_iff {c : Config} {a : Word} : checkAccess c a = .ok () ↔ wordAligned a ∧ wordInBounds c a := by
  unfold checkAccess
  grind

theorem checkAccess_error_iff {c : Config} {a : Word} {e : Fault} :
    checkAccess c a = .error e ↔
      (¬wordAligned a ∧ e = .misalignedAccess a) ∨ (wordAligned a ∧ ¬wordInBounds c a ∧ e = .outOfBounds a) := by
  unfold checkAccess
  grind

theorem State.memRead_ok_iff {s : State} {a v : Word} :
    s.memRead a = .ok v ↔ wordAligned a ∧ wordInBounds s.cfg a ∧ v = Memory.readWord s.mem a.toNat := by
  rw [← and_assoc, ← checkAccess_ok_iff]
  unfold State.memRead
  split <;> simp [*, eq_comm]

theorem State.memRead_error_iff {s : State} {a : Word} {e : Fault} :
    s.memRead a = .error e ↔
      (¬wordAligned a ∧ e = .misalignedAccess a) ∨ (wordAligned a ∧ ¬wordInBounds s.cfg a ∧ e = .outOfBounds a) := by
  rw [← checkAccess_error_iff]
  unfold State.memRead
  split <;> simp [*]

theorem State.memWrite_ok_iff {s t : State} {a v : Word} :
    s.memWrite a v = .ok t ↔
      wordAligned a ∧ wordInBounds s.cfg a ∧ t = s.setMem (Memory.writeWord s.mem a.toNat v) := by
  rw [← and_assoc, ← checkAccess_ok_iff]
  unfold State.memWrite
  split <;> simp [*, eq_comm]

theorem State.memWrite_error_iff {s : State} {a v : Word} {e : Fault} :
    s.memWrite a v = .error e ↔
      (¬wordAligned a ∧ e = .misalignedAccess a) ∨ (wordAligned a ∧ ¬wordInBounds s.cfg a ∧ e = .outOfBounds a) := by
  rw [← checkAccess_error_iff]
  unfold State.memWrite
  split <;> simp [*]

/-! ## Fetch -/

theorem State.fetch_ok_iff {s : State} {w : Word} :
    s.fetch = .ok w ↔ wordInBounds s.cfg s.pc ∧ wordAligned s.pc ∧ w = Memory.readWord s.mem s.pc.toNat := by
  unfold State.fetch
  grind

theorem State.fetch_error_iff {s : State} {e : Fault} :
    s.fetch = .error e ↔
      (¬wordInBounds s.cfg s.pc ∧ e = .fetchOutOfBounds s.pc) ∨
        (wordInBounds s.cfg s.pc ∧ ¬wordAligned s.pc ∧ e = .misalignedAccess s.pc) := by
  unfold State.fetch
  grind

theorem State.fetchDecode_ok_iff {s : State} {i : Instr} :
    s.fetchDecode = .ok i ↔ ∃ w, s.fetch = .ok w ∧ decode s.cfg.branchOpcode w = .ok i := by
  unfold State.fetchDecode
  split
  · simp [*]
  · split <;> simp [*]

theorem State.fetchDecode_error_iff {s : State} {e : Fault} :
    s.fetchDecode = .error e ↔
      s.fetch = .error e ∨ ∃ w d, s.fetch = .ok w ∧ decode s.cfg.branchOpcode w = .error d ∧ e = faultOfDecodeError d := by
  unfold State.fetchDecode
  split
  · simp [*]
  · split <;> simp [*, eq_comm]

/-! ## Commit -/

theorem commitRegister_eq (s : State) (rd : RegIdx) (v : Word) :
    commitRegister s rd v = .next ((s.writeReg rd v).setPc s.pcNext) := rfl

theorem commitPc_eq (s : State) (t : Word) : commitPc s t = .next (s.setPc t) := rfl

theorem commitStore_next_iff {s t : State} {a v : Word} :
    commitStore s a v = .next t ↔
      wordAligned a ∧ wordInBounds s.cfg a ∧ t = (s.setMem (Memory.writeWord s.mem a.toNat v)).setPc s.pcNext := by
  unfold commitStore
  split
  · rename_i u hu
    obtain ⟨h1, h2, rfl⟩ := State.memWrite_ok_iff.1 hu
    simp [h1, h2, eq_comm]
  · rename_i e he
    rcases State.memWrite_error_iff.1 he with ⟨h, -⟩ | ⟨-, h, -⟩ <;> simp [raise, h]

theorem commitStore_fault_iff {s : State} {a v : Word} {e : Fault} :
    commitStore s a v = .fault e ↔
      (¬wordAligned a ∧ e = .misalignedAccess a) ∨ (wordAligned a ∧ ¬wordInBounds s.cfg a ∧ e = .outOfBounds a) := by
  rw [← State.memWrite_error_iff (v := v)]
  unfold commitStore
  split <;> simp [*, raise]

theorem commitStore_ne_refused {s : State} {a v : Word} {r : Refusal} : commitStore s a v ≠ .refused r := by
  unfold commitStore
  split <;> simp [raise]

/-! ## Placing a word for the next fetch -/

/-- Under valid parameters the address of `fetchAddress` can be fetched from. -/
theorem State.fetchAddress_fetchable {s : State} (h : s.cfg.valid) :
    wordInBounds s.cfg s.fetchAddress ∧ wordAligned s.fetchAddress := by
  unfold State.fetchAddress
  split
  · assumption
  · exact ⟨by simpa [wordInBounds] using h.2.1, by simp [wordAligned]⟩

/-- The placed word is the one fetched next. -/
theorem State.fetch_placeWord {s : State} (h : s.cfg.valid) (hm : Memory.wf s.mem) (w : Word) :
    (s.placeWord w).fetch = .ok w := by
  obtain ⟨h1, h2⟩ := State.fetchAddress_fetchable h
  rw [State.fetch_ok_iff]
  exact ⟨h1, h2, (Memory.readWord_writeWord hm _ w).symm⟩

end Sys2Proof.Machine
end

