-- ==== Sys2Proof/Laws/Exec.lean ====
section
/-! SUPPORT. What executing an instruction and making a step can do, said once (one inversion lemma per outcome). -/

namespace Sys2Proof.Machine

/-! ## LW, the one meaning with a read that can fail -/

theorem execLw_next_iff {rd rs1 : RegIdx} {imm : BitVec 12} {s t : State} :
    execLw rd rs1 imm s = .next t ↔
      wordAligned (loadAddress s rs1 imm) ∧ wordInBounds s.cfg (loadAddress s rs1 imm) ∧
        t = (s.writeReg rd (Memory.readWord s.mem (loadAddress s rs1 imm).toNat)).setPc s.pcNext := by
  unfold execLw
  split
  · rename_i v hv
    obtain ⟨h1, h2, rfl⟩ := State.memRead_ok_iff.1 hv
    simp [commitRegister, h1, h2, eq_comm]
  · rename_i e he
    rcases State.memRead_error_iff.1 he with ⟨h, -⟩ | ⟨-, h, -⟩ <;> simp [raise, h]

theorem execLw_fault_iff {rd rs1 : RegIdx} {imm : BitVec 12} {s : State} {e : Fault} :
    execLw rd rs1 imm s = .fault e ↔
      (¬wordAligned (loadAddress s rs1 imm) ∧ e = .misalignedAccess (loadAddress s rs1 imm)) ∨
        (wordAligned (loadAddress s rs1 imm) ∧ ¬wordInBounds s.cfg (loadAddress s rs1 imm) ∧
          e = .outOfBounds (loadAddress s rs1 imm)) := by
  rw [← State.memRead_error_iff]
  unfold execLw
  split <;> simp [*, commitRegister, raise]

/-! ## Every instruction -/

/-- All that a completed instruction can have done: a register and the pc; a word of memory and the pc (SW); the pc
(BEQ); nothing (HALT). -/
theorem exec_next_cases {i : Instr} {s t : State} (h : exec i s = .next t) :
    (∃ rd v, regDest i = some rd ∧ t = (s.writeReg rd v).setPc s.pcNext) ∨
    (∃ rs1 rs2 imm, i = .sw rs1 rs2 imm ∧ wordAligned (storeAddress s rs1 imm) ∧
      wordInBounds s.cfg (storeAddress s rs1 imm) ∧
      t = (s.setMem (Memory.writeWord s.mem (storeAddress s rs1 imm).toNat (s.readReg rs2))).setPc s.pcNext) ∨
    (∃ rs1 rs2 off, i = .beq rs1 rs2 off ∧
      t = s.setPc (if s.readReg rs1 = s.readReg rs2 then branchTarget s off else s.pcNext)) ∨
    (∃ ignored, i = .halt ignored ∧ t = s) := by
  cases i with
  | add rd rs1 rs2 => cases h; exact .inl ⟨rd, _, rfl, rfl⟩
  | sub rd rs1 rs2 => cases h; exact .inl ⟨rd, _, rfl, rfl⟩
  | addi rd rs1 imm => cases h; exact .inl ⟨rd, _, rfl, rfl⟩
  | lui rd imm20 => cases h; exact .inl ⟨rd, _, rfl, rfl⟩
  | lw rd rs1 imm => exact .inl ⟨rd, _, rfl, (execLw_next_iff.1 h).2.2⟩
  | sw rs1 rs2 imm => exact .inr (.inl ⟨rs1, rs2, imm, rfl, commitStore_next_iff.1 h⟩)
  | beq rs1 rs2 off =>
    cases h
    exact .inr (.inr (.inl ⟨rs1, rs2, off, rfl, by simp [branchTaken]⟩))
  | halt ignored => cases h; exact .inr (.inr (.inr ⟨ignored, rfl, rfl⟩))

/-- The only ways an instruction fails: LW's or SW's address is misaligned, or aligned and outside memory. -/
theorem exec_fault_cases {i : Instr} {s : State} {e : Fault} (h : exec i s = .fault e) :
    ∃ a, ((∃ rd rs1 imm, i = .lw rd rs1 imm ∧ a = loadAddress s rs1 imm) ∨
        (∃ rs1 rs2 imm, i = .sw rs1 rs2 imm ∧ a = storeAddress s rs1 imm)) ∧
      ((¬wordAligned a ∧ e = .misalignedAccess a) ∨ (wordAligned a ∧ ¬wordInBounds s.cfg a ∧ e = .outOfBounds a)) := by
  cases i with
  | add => cases h
  | sub => cases h
  | addi => cases h
  | lui => cases h
  | beq => cases h
  | halt => cases h
  | lw rd rs1 imm => exact ⟨_, .inl ⟨rd, rs1, imm, rfl, rfl⟩, execLw_fault_iff.1 h⟩
  | sw rs1 rs2 imm => exact ⟨_, .inr ⟨rs1, rs2, imm, rfl, rfl⟩, commitStore_fault_iff.1 h⟩

theorem exec_ne_refused (i : Instr) (s : State) (r : Refusal) : exec i s ≠ .refused r := by
  cases i with
  | add => exact nofun
  | sub => exact nofun
  | addi => exact nofun
  | lui => exact nofun
  | beq => exact nofun
  | halt => exact nofun
  | lw rd rs1 imm => simp only [exec, execLw]; split <;> simp [commitRegister, raise]
  | sw rs1 rs2 imm => exact commitStore_ne_refused

/-! ## The step -/

theorem step_next_iff {s t : State} :
    step s = .next t ↔
      ∃ w i, s.fetch = .ok w ∧ decode s.cfg.branchOpcode w = .ok i ∧ exec i s = .next t := by
  unfold step
  split
  · rename_i i hi
    obtain ⟨w, hw, hd⟩ := State.fetchDecode_ok_iff.1 hi
    simp [hw, hd]
  · rename_i e he
    rcases State.fetchDecode_error_iff.1 he with h | ⟨w, d, h1, h2, -⟩
    · simp [raise, h]
    · simp [raise, h1, h2]

theorem step_fault_iff {s : State} {e : Fault} :
    step s = .fault e ↔
      s.fetch = .error e ∨
      (∃ w d, s.fetch = .ok w ∧ decode s.cfg.branchOpcode w = .error d ∧ e = faultOfDecodeError d) ∨
      (∃ w i, s.fetch = .ok w ∧ decode s.cfg.branchOpcode w = .ok i ∧ exec i s = .fault e) := by
  unfold step
  split
  · rename_i i hi
    obtain ⟨w, hw, hd⟩ := State.fetchDecode_ok_iff.1 hi
    simp [hw, hd]
  · rename_i e' he
    rcases State.fetchDecode_error_iff.1 he with h | ⟨w, d, h1, h2, rfl⟩
    · simp [raise, h]
    · simp [raise, h1, h2, eq_comm]

end Sys2Proof.Machine
end

