-- ==== Sys2Proof/Laws/PerInstr.lean ====
section
/-! SUPPORT. Per-instruction families: one lemma per constructor of `Instr`. -/

namespace Sys2Proof.Laws

/-- The encoded word of an instruction matches the opcode-table rows of its mnemonic (30_encoding.md R80, R91). -/
def MatchesItsRow.Statement (i : Instr) : Prop :=
  ∀ bop, ∀ r ∈ opcodeMap bop ++ [sentinelRow], r.mnemonic = i.mnemonic → r.matchesWord (encode bop i) = true

theorem MatchesItsRow.add (rd rs1 rs2 : RegIdx) : MatchesItsRow.Statement (.add rd rs1 rs2) := by
  simp [MatchesItsRow.Statement, opcodeMap, sentinelRow, Instr.mnemonic, OpcodeRow.matchesWord, encode, and_maskR]
  rfl

theorem MatchesItsRow.sub (rd rs1 rs2 : RegIdx) : MatchesItsRow.Statement (.sub rd rs1 rs2) := by
  simp [MatchesItsRow.Statement, opcodeMap, sentinelRow, Instr.mnemonic, OpcodeRow.matchesWord, encode, and_maskR]
  rfl

theorem MatchesItsRow.addi (rd rs1 : RegIdx) (imm : BitVec 12) : MatchesItsRow.Statement (.addi rd rs1 imm) := by
  simp [MatchesItsRow.Statement, opcodeMap, sentinelRow, Instr.mnemonic, OpcodeRow.matchesWord, encode, and_maskF3]
  rfl

theorem MatchesItsRow.lw (rd rs1 : RegIdx) (imm : BitVec 12) : MatchesItsRow.Statement (.lw rd rs1 imm) := by
  simp [MatchesItsRow.Statement, opcodeMap, sentinelRow, Instr.mnemonic, OpcodeRow.matchesWord, encode, and_maskF3]
  rfl

theorem MatchesItsRow.sw (rs1 rs2 : RegIdx) (imm : BitVec 12) : MatchesItsRow.Statement (.sw rs1 rs2 imm) := by
  simp [MatchesItsRow.Statement, opcodeMap, sentinelRow, Instr.mnemonic, OpcodeRow.matchesWord, encode, and_maskF3]
  rfl

theorem MatchesItsRow.lui (rd : RegIdx) (imm20 : BitVec 20) : MatchesItsRow.Statement (.lui rd imm20) := by
  simp [MatchesItsRow.Statement, opcodeMap, sentinelRow, Instr.mnemonic, OpcodeRow.matchesWord, encode, and_maskOp]
  rfl

theorem MatchesItsRow.beq (rs1 rs2 : RegIdx) (off : BitVec 13) : MatchesItsRow.Statement (.beq rs1 rs2 off) := by
  simp [MatchesItsRow.Statement, opcodeMap, sentinelRow, Instr.mnemonic, OpcodeRow.matchesWord, encode, and_maskF3,
    setWidth_branchOpcode]

theorem MatchesItsRow.halt (ignored : BitVec 25) : MatchesItsRow.Statement (.halt ignored) := by
  simp [MatchesItsRow.Statement, opcodeMap, sentinelRow, Instr.mnemonic, OpcodeRow.matchesWord, encode, and_maskOp]
  rfl

end Sys2Proof.Laws
end

