-- ==== Sys2Proof/Tests/Slice0.lean ====
section
/-! SUPPORT. The model's own tests. Expected values are those of 95_test_vectors.md (E1 to E10, V1 to V7, P1 to P6) or
worked out by hand from a rule; none comes from the model. Then one witness per statement that has hypotheses. -/

namespace Sys2Proof.Tests

open Sys2Proof Sys2Proof.Machine

/-! ## Helpers -/

/-- A reset state with `x[r]` and the word at `addr` set. -/
def demo (r : RegIdx) (v : Word) (addr : Word) (m : Word) : State :=
  (State.reset.writeReg r v).setMem (Memory.writeWord [] addr.toNat m)

/-- The next state of an outcome. -/
def next? : Host.Outcome State Fault Refusal → Option State
  | .next t => some t
  | .fault _ => none
  | .refused _ => none

/-- The fault of an outcome. -/
def fault? : Host.Outcome State Fault Refusal → Option Fault
  | .next _ => none
  | .fault e => some e
  | .refused _ => none

/-- One register and the pc after an outcome. -/
def regPc (r : RegIdx) (o : Host.Outcome State Fault Refusal) : Option (Word × Word) :=
  (next? o).map fun t => (t.readReg r, t.pc)

/-- The step from reset whose fetched word is `w`, with `x[r] = v` before it. -/
def stepWord (r : RegIdx) (v : Word) (w : Nat) : Host.Outcome State Fault Refusal :=
  step ((State.reset.writeReg r v).withFetchWord 32 w)

/-! ## Well-formedness: an ill-formed term for each check -/

theorem test_odd_branch_offset_refused : (Instr.beq 0#5 0#5 3#13).wellFormed = false := by decide
theorem test_even_branch_offset_accepted : (Instr.beq 0#5 0#5 2#13).wellFormed = true := by decide
theorem test_memory_size_not_multiple_of_four_refused : ¬Config.valid ⟨6, 0x63#7⟩ := by decide
theorem test_memory_size_zero_refused : ¬Config.valid ⟨0, 0x63#7⟩ := by decide
theorem test_memory_size_too_large_refused : ¬Config.valid ⟨2 ^ 32 + 4, 0x63#7⟩ := by decide
theorem test_branch_opcode_taken_refused : ¬Config.valid ⟨65536, 0x13#7⟩ := by decide
theorem test_branch_opcode_sentinel_refused : ¬Config.valid ⟨65536, 0x00#7⟩ := by decide
theorem test_largest_memory_accepted : Config.valid ⟨2 ^ 32, 0x7F#7⟩ := by decide

/-! ## Decoding, from words written out of the spec's encodings (E1 to E5, V1) -/

theorem test_decode_lui : decodeTableWord 32 0x12345537 = some (.lui 10#5 0x12345#20) := by decide
theorem test_decode_addi : decodeTableWord 32 0x02A00593 = some (.addi 11#5 0#5 42#12) := by decide
theorem test_decode_add : decodeTableWord 32 0x00B50633 = some (.add 12#5 10#5 11#5) := by decide
theorem test_decode_sub : decodeTableWord 32 0x40B606B3 = some (.sub 13#5 12#5 11#5) := by decide
theorem test_decode_sw : decodeTableWord 32 0xFEA12E23 = some (.sw 2#5 10#5 0xFFC#12) := by decide
theorem test_decode_lw : decodeTableWord 32 0xFFC12783 = some (.lw 15#5 2#5 0xFFC#12) := by decide
/-- The S-immediate's slices apart: `w[31:25] = 0x40` and `w[11:7] = 0x01` make `0x801` (R83). -/
theorem test_decode_sw_slices :
    decodeTableWord 32 0b1000000_01010_00010_010_00001_0100011 = some (.sw 2#5 10#5 0x801#12) := by decide
theorem test_decode_beq : decodeTableWord 32 0xFE000EE3 = some (.beq 0#5 0#5 0x1FFC#13) := by decide
/-- R85's example: the slice of `w[7]` goes to bit 11 of the offset, -2048. -/
theorem test_decode_beq_bit_seven : decodeTableWord 32 0x800000E3 = some (.beq 0#5 0#5 0x1800#13) := by decide
/-- The same, bit by bit: `w[31] w[30:25] w[24:20] w[19:15] w[14:12] w[11:8] w[7] w[6:0]` of R76. -/
theorem test_decode_beq_by_bits :
    decodeTableWord 32 0b0_000000_01011_01010_000_0100_0_1100011 = some (.beq 10#5 11#5 8#13) := by decide
/-- The sentinel is no instruction of the decoder (R105); only the run mode reads it. -/
theorem test_decode_sentinel_refused : decodeTableWord 32 0xFFFFFF80 = none := by decide
theorem test_recognise_sentinel : recognise 0x63#7 0xFFFFFF80#32 = .ok (.halt 0x1FFFFFF#25) := by decide
/-- V2: one illegal word for each kind of refusal. -/
theorem test_decode_illegal_words :
    [0x00001013, 0x00007033, 0x02000033, 0x40001033, 0x00000003, 0x00001023, 0x00001063, 0x0000000F].map
      (decodeTableWord 32) = List.replicate 8 none := by decide
/-- Another branch opcode moves BEQ to other words and nothing else (R87). -/
theorem test_decode_other_branch_opcode :
    decode 0x7F#7 0xFE000EFF#32 = .ok (.beq 0#5 0#5 0x1FFC#13) ∧
      decode 0x7F#7 0xFE000EE3#32 = .error (.unknownInstruction 0xFE000EE3#32) := by decide
/-- R95: DOC00's own words, encoded. -/
theorem test_encode_words :
    [Instr.lui 10#5 0x12345#20, .addi 11#5 0#5 42#12, .add 12#5 10#5 11#5, .sub 13#5 12#5 11#5, .sw 2#5 12#5 0#12].map
      (encode 0x63#7) = [0x12345537#32, 0x02A00593#32, 0x00B50633#32, 0x40B606B3#32, 0x00C12023#32] := by decide

/-! ## The instructions (V3 to V5) -/

theorem test_add_wraps :
    regPc 12#5 (exec (.add 12#5 10#5 11#5) ((State.reset.writeReg 10#5 0xFFFFFFFF#32).writeReg 11#5 1#32)) =
      some (0#32, 4#32) := by decide
theorem test_add_same_register : regPc 10#5 (stepWord 10#5 0x40000001#32 0x00A50533) = some (0x80000002#32, 4#32) := by
  decide
theorem test_sub_borrow :
    regPc 13#5 (exec (.sub 13#5 12#5 11#5) (State.reset.writeReg 11#5 1#32)) = some (0xFFFFFFFF#32, 4#32) := by decide
theorem test_sub_order : regPc 13#5 (stepWord 11#5 0x80000000#32 0x40B006B3) = some (0x80000000#32, 4#32) := by decide
theorem test_addi_negative : regPc 10#5 (stepWord 10#5 0#32 0xFFF50513) = some (0xFFFFFFFF#32, 4#32) := by decide
theorem test_addi_lowest : regPc 10#5 (stepWord 5#5 7#32 0x80000513) = some (0xFFFFF800#32, 4#32) := by decide
theorem test_lui_top_bit : regPc 10#5 (stepWord 10#5 0x55#32 0x80000537) = some (0x80000000#32, 4#32) := by decide
theorem test_lui_to_zero_discarded : regPc 0#5 (stepWord 1#5 9#32 0x12345037) = some (0#32, 4#32) := by decide
/-- V4: the address wraps, `0xFFFFFFFC + 8 = 4`. -/
theorem test_lw_wraps :
    regPc 15#5 (exec (.lw 15#5 2#5 8#12) (demo 2#5 0xFFFFFFFC#32 4#32 0x11223344#32)) = some (0x11223344#32, 4#32) := by
  decide
/-- V4: the destination is the base. -/
theorem test_lw_over_base :
    regPc 2#5 (exec (.lw 2#5 2#5 0#12) (demo 2#5 0x100#32 0x100#32 0x200#32)) = some (0x200#32, 4#32) := by decide
/-- V4: alignment before bounds. -/
theorem test_lw_misaligned_before_bounds :
    fault? (exec (.lw 15#5 2#5 3#12) (State.reset.writeReg 2#5 0xFFFC#32)) = some (.misalignedAccess 0xFFFF#32) := by decide
/-- V4: one word past the end. -/
theorem test_lw_out_of_bounds :
    fault? (exec (.lw 0#5 2#5 4#12) (State.reset.writeReg 2#5 0xFFFC#32)) = some (.outOfBounds 0x10000#32) := by decide
/-- V4: `SW a0, 2044(zero)` with `a0 = 0x01020304` stores the bytes 04 03 02 01. -/
theorem test_sw_bytes :
    (next? (exec (.sw 0#5 10#5 2044#12) (State.reset.writeReg 10#5 0x01020304#32))).map (·.mem) =
      some [(0x7FC, 4#8), (0x7FD, 3#8), (0x7FE, 2#8), (0x7FF, 1#8)] := by decide
/-- V4: storing 0 over `0xFFFFFFFF` leaves cleared memory, which lists nothing. -/
theorem test_sw_zero_unlists :
    (next? (exec (.sw 2#5 0#5 0#12) (demo 2#5 0x100#32 0x100#32 0xFFFFFFFF#32))).map (·.mem) = some [] := by decide
/-- V4: the bound of -1 is on unbounded integers; it is misaligned first. -/
theorem test_sw_misaligned_at_top :
    fault? (exec (.sw 0#5 10#5 0xFFF#12) State.reset) = some (.misalignedAccess 0xFFFFFFFF#32) := by decide
theorem test_sw_out_of_bounds :
    fault? (exec (.sw 0#5 10#5 0xFFC#12) State.reset) = some (.outOfBounds 0xFFFFFFFC#32) := by decide
/-- V5: all 32 bits are compared; not taken at the last word, the pc falls off the end. -/
theorem test_beq_not_taken_at_last_word :
    regPc 0#5 (exec (.beq 10#5 11#5 8#13) ((State.reset.writeReg 10#5 0x80000001#32).writeReg 11#5 1#32 |>.setPc 0xFFFC#32)) =
      some (0#32, 0x10000#32) := by decide
/-- V5: `BEQ zero, zero, -16` at 8 wraps. -/
theorem test_beq_wraps : regPc 0#5 (exec (.beq 0#5 0#5 0x1FF0#13) (State.reset.setPc 8#32)) = some (0#32, 0xFFFFFFF8#32) := by
  decide
theorem test_halt_changes_nothing : next? (exec (.halt 5#25) (State.reset.setPc 8#32)) = some (State.reset.setPc 8#32) := by
  decide

/-! ## Fetch, step and run (V6) -/

theorem test_step_at_sentinel : fault? (step State.reset) = some (.unknownInstruction 0#32) := by decide
theorem test_run_at_sentinel : runFor 1 State.reset = .halted State.reset := by decide
theorem test_fetch_bounds_before_alignment :
    fault? (step (State.reset.setPc 0xFFFD#32)) = some (.fetchOutOfBounds 0xFFFD#32) := by decide
theorem test_fetch_misaligned : fault? (step (State.reset.setPc 2#32)) = some (.misalignedAccess 2#32) := by decide
theorem test_fetch_unbounded_comparison :
    fault? (step (State.reset.setPc 0xFFFFFFFC#32)) = some (.fetchOutOfBounds 0xFFFFFFFC#32) := by decide
/-- P5: the branch to 2 completes and its step is the pc's only change. -/
theorem test_branch_to_misaligned_completes : regPc 0#5 (stepWord 1#5 1#32 0x00000163) = some (0#32, 2#32) := by decide
/-- V2, V6: an illegal word in run mode is the error, with the state before it. -/
theorem test_run_error :
    runFor 2 (State.reset.withFetchWord 32 0x00A57533) =
      .error (.unknownInstruction 0x00A57533#32) (State.reset.withFetchWord 32 0x00A57533) := by decide

/-! ## The host port (V7) and the trace -/

theorem test_host_names :
    [RegSelector.name "a0", .name "t6", .name "fp", .name "x5", .index 31, .index 32].map resolveRegister =
      [some 10#5, some 31#5, none, none, some 31#5, none] := by decide
theorem test_host_set_zero :
    hostCommand State.reset (.setReg (.index 0) 0xCAFEBABE#32) = (.ok, State.reset) := by decide
theorem test_host_load_last_bytes :
    (hostCommand State.reset (.loadImage [0xAA#8, 0xBB#8, 0xCC#8, 0xDD#8] 0xFFFC#32)).2.memRead 0xFFFC#32 =
      .ok 0xDDCCBBAA#32 := by decide
theorem test_host_load_overrun :
    hostCommand State.reset (.loadImage [0xAA#8, 0xBB#8, 0xCC#8, 0xDD#8] 0xFFFD#32) =
      (.error (.outOfBounds 0xFFFD#32), State.reset) := by decide
theorem test_host_load_empty_at_end : hostCommand State.reset (.loadImage [] 0x10000#32) = (.ok, State.reset) := by decide
theorem test_host_load_empty_past_end :
    (hostCommand State.reset (.loadImage [] 0x10001#32)).1 = .error (.outOfBounds 0x10001#32) := by decide
theorem test_host_load_odd_offset :
    (hostCommand State.reset (.loadImage [0xAA#8] 0x101#32)).2.memRead 0x100#32 = .ok 0xAA00#32 := by decide
theorem test_host_read_misaligned_first :
    (hostCommand State.reset (.readWord 0x10001#32)).1 = .error (.misalignedAccess 0x10001#32) := by decide
theorem test_trace_of_add_to_zero :
    traceStep (State.reset.withFetchWord 32 0x00B50033) =
      { word := some 0x00B50033#32, decoded := some (.rType .add 0#5 10#5 11#5 0#3 0#7), pcBefore := 0#32, pcAfter := 4#32,
        regsRead := [10#5, 11#5], regWritten := none, error := none } := by decide
theorem test_error_codes :
    [none, some (Fault.unknownInstruction 0#32), some (.misalignedAccess 0#32), some (.outOfBounds 0#32),
      some (.fetchOutOfBounds 0#32), some (.registerNotFound (.index 32))].map errorCode = [0, 1, 2, 3, 4, 5] := by decide

/-! ## Witnesses: for each statement with hypotheses, a state and operands that meet them together -/

theorem reset_machineInv : MachineInv State.reset :=
  ⟨Config.default_valid, State.reset_mem_wf, by decide, by decide⟩

theorem witness_DecodeOfEncodeGivesTheInstruction :
    Config.default.valid ∧ (Instr.beq 1#5 31#5 0x1000#13).wellFormed = true ∧ (Instr.halt 1#25).wellFormed = true := by
  decide
theorem witness_EncodeOfDecodeGivesTheWord : decode 0x63#7 0x80000063#32 = .ok (.beq 0#5 0#5 0x1000#13) := by decide
/-- For the statements whose one hypothesis is an admitted choice of the parameters: smallest and largest memory. -/
theorem witness_valid_parameters : Config.valid ⟨4, 0x01#7⟩ ∧ Config.valid ⟨2 ^ 32, 0x7F#7⟩ := by decide
theorem witness_DecodeErrorCarriesTheWord : decode 0x63#7 0#32 = .error (.unknownInstruction 0#32) := by decide
/-- The clause about LW in RegisterZeroIsHardWired, and LwLoadsTheLittleEndianWord, at the last word of memory. -/
theorem witness_LwLoadsTheLittleEndianWord :
    let s := demo 2#5 0xFFFC#32 0xFFFC#32 1#32
    (loadAddress s 2#5 0#12).toNat % 4 = 0 ∧ (loadAddress s 2#5 0#12).toNat + 4 ≤ s.cfg.memSize ∧
      (next? (exec (.lw 5#5 2#5 0#12) s)).isSome = true := by decide
theorem witness_RegisterNames : resolveRegister (.name "t6") = some 31#5 := by decide
theorem witness_HostRegisterAccess :
    resolveRegister (.index 0) = some 0#5 ∧ resolveRegister (.name "ra") = some 1#5 ∧
      resolveRegister (.index 32) = none ∧ resolveRegister (.name "x0") = none := by decide
theorem witness_AluWords :
    (0x01FF8FB3#32 : Word) &&& 0xFE00707F#32 = 0x33#32 ∧
      (0x41FF8FB3#32 : Word) &&& 0xFE00707F#32 = 0x40000033#32 ∧ (0xFFFF8F93#32 : Word) &&& 0x0000707F#32 = 0x13#32 ∧
      (0xFFFFFFB7#32 : Word) &&& 0x0000007F#32 = 0x37#32 := by decide
/-- The word clauses of LW, SW and BEQ (and DecodedRecordFollowsTheTable), every operand bit set; BEQ under two opcodes. -/
theorem witness_MemoryAndBranchWords :
    (0xFFFFAF83#32 : Word) &&& 0x0000707F#32 = 0x00002003#32 ∧
      (0xFFFFAFA3#32 : Word) &&& 0x0000707F#32 = 0x00002023#32 ∧
      (0xFFFF8FE3#32 : Word) &&& 0x0000707F#32 = Config.default.branchOpcode.setWidth 32 ∧
      (0xFFFF8FFF#32 : Word) &&& 0x0000707F#32 = (0x7F#7 : BitVec 7).setWidth 32 := by decide
theorem witness_SwStoresTheLittleEndianWord :
    Memory.wf State.reset.mem ∧ (storeAddress State.reset 0#5 0x7FC#12).toNat % 4 = 0 ∧
      (storeAddress State.reset 0#5 0x7FC#12).toNat + 4 ≤ State.reset.cfg.memSize := by decide
/-- LoadAfterStoreYieldsTheStoredWord: the store's next state and the equal addresses. -/
theorem witness_LoadAfterStore :
    let s := State.reset.writeReg 10#5 7#32
    Memory.wf s.mem ∧ (next? (exec (.sw 0#5 10#5 16#12) s)).map (fun t => decide (loadAddress t 0#5 16#12 =
      storeAddress s 0#5 16#12)) = some true := by decide
theorem witness_BeqBothWays :
    State.reset.readReg 1#5 = State.reset.readReg 2#5 ∧
      (State.reset.writeReg 1#5 1#32).readReg 1#5 ≠ (State.reset.writeReg 1#5 1#32).readReg 2#5 := by decide
theorem witness_SentinelEndsARunInPlace :
    State.reset.cfg.valid ∧ State.reset.fetch = .ok (encode State.reset.cfg.branchOpcode (.halt 0#25)) := by decide
/-- LW and SW each stop in each of their two ways (LwAndSwStopExactlyOnABadAddress, OnlyLoadsAndStoresCanFail,
MisalignedWordAccessAlwaysFails); the boundary addresses are `MEM_SIZE` and 1. -/
theorem witness_BadAddresses :
    fault? (exec (.lw 1#5 2#5 0#12) (State.reset.writeReg 2#5 0x10000#32)) = some (.outOfBounds 0x10000#32) ∧
      fault? (exec (.sw 2#5 1#5 0#12) (State.reset.writeReg 2#5 0x10000#32)) = some (.outOfBounds 0x10000#32) ∧
      fault? (exec (.lw 1#5 0#5 1#12) State.reset) = some (.misalignedAccess 1#32) ∧
      fault? (exec (.sw 0#5 1#5 1#12) State.reset) = some (.misalignedAccess 1#32) := by decide
/-- InstructionsChangeOnlyTheirDestination: SW completes; so do LW and BEQ above. -/
theorem witness_SwCompletes : (next? (exec (.sw 0#5 10#5 16#12) State.reset)).isSome = true := by decide
/-- InstructionsDependOnlyOnTheirSources: two states that differ in a register that ADD does not read. -/
theorem witness_DependOnlyOnSources :
    State.reset.pc = (State.reset.writeReg 7#5 1#32).pc ∧ State.reset.mem = (State.reset.writeReg 7#5 1#32).mem ∧
      State.reset.cfg = (State.reset.writeReg 7#5 1#32).cfg ∧
      (∀ r ∈ regsRead (.add 7#5 8#5 9#5), State.reset.readReg r = (State.reset.writeReg 7#5 1#32).readReg r) ∧
      State.reset ≠ State.reset.writeReg 7#5 1#32 := by decide
/-- OnlyATakenBranchLeavesAlignment: a step from an aligned pc to one that is 2 modulo 4. -/
theorem witness_LeavesAlignment :
    (State.reset.withFetchWord 32 0x00000163).pc.toNat % 4 = 0 ∧
      ((next? (step (State.reset.withFetchWord 32 0x00000163))).map (·.pc.toNat % 4)) = some 2 := by decide
theorem witness_WordWriteCases :
    Memory.wf State.reset.mem ∧ (3#32 : Word).toNat % 4 ≠ 0 ∧
      ((0x10000#32 : Word).toNat % 4 = 0 ∧ State.reset.cfg.memSize < (0x10000#32 : Word).toNat + 4) ∧
      ((0xFFFC#32 : Word).toNat % 4 = 0 ∧ (0xFFFC#32 : Word).toNat + 4 ≤ State.reset.cfg.memSize) := by decide
/-- AStoredWordIsSeenByTheNextFetch: SW stores to the very next instruction; the host writes at the pc. -/
theorem witness_StoreToTheNextInstruction :
    Memory.wf State.reset.mem ∧ storeAddress State.reset 0#5 4#12 = State.reset.pc + 4#32 ∧
      (next? (exec (.sw 0#5 1#5 4#12) State.reset)).isSome = true ∧
      (State.reset.memWrite State.reset.pc 0x13#32).isOk = true := by decide
/-- LoadImageCopiesAllOrNothing: both sides of the bound. -/
theorem witness_LoadImageCases :
    State.reset.cfg.memSize < (0xFFFD#32 : Word).toNat + [1#8, 2#8, 3#8, 4#8].length ∧
      (0xFFFC#32 : Word).toNat + [1#8, 2#8, 3#8, 4#8].length ≤ State.reset.cfg.memSize := by decide
theorem witness_StepRunsTheDecodedInstruction :
    let s := State.reset.withFetchWord 32 0x00B50633
    s.pc.toNat + 4 ≤ s.cfg.memSize ∧ s.pc.toNat % 4 = 0 ∧
      decodeBytes s.cfg.branchOpcode (Memory.readByte s.mem s.pc.toNat) (Memory.readByte s.mem (s.pc.toNat + 1))
        (Memory.readByte s.mem (s.pc.toNat + 2)) (Memory.readByte s.mem (s.pc.toNat + 3)) = .ok (.add 12#5 10#5 11#5) := by
  decide
/-- APlacedWordIsFetchedNext: every word, at the largest. -/
theorem witness_APlacedWordIsFetchedNext : MachineInv State.reset ∧ 0xFFFFFFFF < 2 ^ 32 := ⟨reset_machineInv, by decide⟩
/-- FirstFailingPhaseEndsTheStep and TraceRecordTellsTheStep: a step that fails in each phase, and one that completes. -/
theorem witness_StepPhases :
    State.reset.fetch = .ok 0#32 ∧ (State.reset.setPc 2#32).fetch = .error (.misalignedAccess 2#32) ∧
      fault? (step (State.reset.withFetchWord 32 0x00102083)) = some (.misalignedAccess 1#32) ∧
      (next? (step (State.reset.withFetchWord 32 0x00000013))).isSome = true := by decide
/-- TraceRecordTellsTheStep: BEQ completes and shows no written register, LUI shows its `rd`. -/
theorem witness_TraceWritten :
    (next? (step (State.reset.withFetchWord 32 0x00000063))).isSome = true ∧
      (traceStep (State.reset.withFetchWord 32 0x00000063)).regWritten = none ∧
      (traceStep (State.reset.withFetchWord 32 0x12345537)).regWritten = some 10#5 := by decide
/-- EveryStepKeepsTheInvariant, ParametersNeverChange: a state with the invariant whose step completes. -/
theorem witness_InvariantStep :
    MachineInv State.reset ∧ (next? (exec (.sw 0#5 1#5 4#12) State.reset)).isSome = true ∧
      (next? (step (State.reset.withFetchWord 32 0x00000013))).isSome = true := ⟨reset_machineInv, by decide, by decide⟩
/-- AnErrorChangesNothing: a failing host write, step and run. -/
theorem witness_HostErrors :
    (hostCommand State.reset (.writeWord 2#32 1#32)) = (.error (.misalignedAccess 2#32), State.reset) ∧
      fault? (step State.reset) = some (.unknownInstruction 0#32) ∧
      (hostCommand (State.reset.setPc 2#32) (.run 1)).1 = .error (.misalignedAccess 2#32) := by decide
theorem witness_HaltsIn : HaltsIn State.reset State.reset := ⟨1, by decide⟩
theorem witness_FailsIn :
    FailsIn (State.reset.setPc 0x10000#32) (.fetchOutOfBounds 0x10000#32) (State.reset.setPc 0x10000#32) :=
  ⟨1, by decide⟩
theorem witness_ABranchToItselfRunsForever :
    let s := State.reset.withFetchWord 32 0x00000063
    s.cfg.valid ∧ s.fetchDecode = .ok (.beq 0#5 0#5 0#13) ∧ s.readReg 0#5 = s.readReg 0#5 := by decide

end Sys2Proof.Tests
end

section
/-! SUPPORT. The host's register selectors (10_state.md R14, R26): what resolves to which index, and what the host's
access gives for a selector that resolves. -/

namespace Sys2Proof.Machine

theorem registerNames_nodup : registerNames.Nodup := by decide

/-- No name is listed twice, so the first index at which a name stands is the only one. -/
theorem findIdx?_registerNames_iff {n : String} {k : Nat} :
    registerNames.findIdx? (· == n) = some k ↔ registerNames[k]? = some n := by
  rw [List.findIdx?_eq_some_iff_getElem, List.getElem?_eq_some_iff]
  constructor
  · rintro ⟨hk, hn, -⟩
    exact ⟨hk, by simpa using hn⟩
  · rintro ⟨hk, rfl⟩
    refine ⟨hk, by simp, fun j hj => ?_⟩
    simp [registerNames_nodup.getElem_inj_iff, hj.ne]

theorem resolveRegister_name_iff {n : String} {r : RegIdx} :
    resolveRegister (.name n) = some r ↔ registerNames[r.toNat]? = some n := by
  simp only [resolveRegister, Option.map_eq_some_iff, findIdx?_registerNames_iff]
  constructor
  · rintro ⟨k, hk, rfl⟩
    have hlt : k < 32 := (List.getElem?_eq_some_iff.1 hk).1
    rwa [BitVec.toNat_ofNat, Nat.mod_eq_of_lt hlt]
  · intro h
    exact ⟨r.toNat, h, by simp⟩

/-- Every index has a name: the table has as many rows as there are registers. -/
theorem exists_registerName (r : RegIdx) : ∃ n, registerNames[r.toNat]? = some n :=
  ⟨_, List.getElem?_eq_getElem (l := registerNames) r.isLt⟩

theorem resolveRegister_index {i : Nat} (h : i < 32) : resolveRegister (.index i) = some (BitVec.ofNat 5 i) := if_pos h

theorem State.getRegister_of_resolve {s : State} {sel : RegSelector} {r : RegIdx} (h : resolveRegister sel = some r) :
    s.getRegister sel = .ok (s.readReg r) := by simp [State.getRegister, h]

theorem State.setRegister_of_resolve {s : State} {sel : RegSelector} {r : RegIdx} {v : Word}
    (h : resolveRegister sel = some r) : s.setRegister sel v = .ok (s.writeReg r v) := by simp [State.setRegister, h]

end Sys2Proof.Machine
end

section
/-! SUPPORT. Instructions whose destination is the hard-wired register (10_state.md R13). -/

namespace Sys2Proof.Machine

/-- Committing to register 0 advances the pc and does nothing else. -/
@[simp] theorem commitRegister_zero (s : State) (v : Word) : commitRegister s 0#5 v = .next (s.setPc (s.pc + 4#32)) := rfl

/-- LW raises by its address alone, whatever its destination. -/
theorem exec_lw_fault_iff_of_rd (rd rd' rs1 : RegIdx) (imm : BitVec 12) (s : State) (e : Fault) :
    exec (.lw rd rs1 imm) s = .fault e ↔ exec (.lw rd' rs1 imm) s = .fault e :=
  execLw_fault_iff.trans execLw_fault_iff.symm

/-- Where LW completes with some destination, it completes with register 0 and only the pc changes. -/
theorem exec_lw_zero_of_completes {rd rs1 : RegIdx} {imm : BitVec 12} {s t : State}
    (h : exec (.lw rd rs1 imm) s = .next t) : exec (.lw 0#5 rs1 imm) s = .next (s.setPc (s.pc + 4#32)) := by
  obtain ⟨haligned, hbounds, -⟩ := execLw_next_iff.1 h
  exact execLw_next_iff.2 ⟨haligned, hbounds, rfl⟩

end Sys2Proof.Machine
end

section
/-! The statements about the registers (10_state.md R12 to R14). -/

namespace Sys2Proof

open Sys2Proof.Machine

/-- Settles O9: reads and writes by the register file's laws, the host through the selectors that resolve to register 0,
and the instructions through what committing to register 0 does, LW after its checks. -/
theorem registerZeroIsHardWired : Obligations.RegisterZeroIsHardWired := by
  have hindex : resolveRegister (.index 0) = some 0#5 := resolveRegister_index (by decide)
  have hname : resolveRegister (.name "zero") = some 0#5 := resolveRegister_name_iff.2 rfl
  exact ⟨State.readReg_zero,
    fun s r v => State.readReg_zero (s.writeReg r v),
    State.writeReg_zero,
    fun s => ⟨State.getRegister_of_resolve hindex, State.getRegister_of_resolve hname⟩,
    fun s v => ⟨State.setRegister_of_resolve hindex, State.setRegister_of_resolve hname⟩,
    fun s rs1 rs2 => commitRegister_zero s (s.readReg rs1 + s.readReg rs2),
    fun s rs1 rs2 => commitRegister_zero s (s.readReg rs1 - s.readReg rs2),
    fun s rs1 imm => commitRegister_zero s (s.readReg rs1 + immI imm),
    fun s imm20 => commitRegister_zero s (immU imm20),
    fun s rd rs1 imm => ⟨exec_lw_fault_iff_of_rd 0#5 rd rs1 imm s,
      fun ⟨_, hcompletes⟩ => exec_lw_zero_of_completes hcompletes⟩⟩

/-- Settles O10: a name resolves to an index exactly if it stands there in the table, where every index has a name. -/
theorem registerNamesMapBijectively : Obligations.RegisterNamesMapBijectively := by
  refine ⟨rfl, fun r => ?_, fun n r hresolves => resolveRegister_name_iff.1 hresolves⟩
  obtain ⟨n, hn⟩ := exists_registerName r
  exact ⟨n, hn, resolveRegister_name_iff.2 hn⟩

end Sys2Proof
end

section
/-! SUPPORT. The byte order of a word in memory (20_memory.md R42), for a read and after a checked write. -/

namespace Sys2Proof.Machine

/-- A word read has the byte at its address as its least significant one. -/
theorem Memory.readWord_eq_append (m : Memory) (a : Nat) :
    Memory.readWord m a = Memory.readByte m (a + 3) ++ Memory.readByte m (a + 2) ++
      Memory.readByte m (a + 1) ++ Memory.readByte m a := rfl

/-- The bytes of the written word, as they stand after a checked write that succeeds. -/
theorem State.readByte_of_memWrite {s t : State} {a v : Word} (hm : Memory.wf s.mem) (h : s.memWrite a v = .ok t)
    {i : Nat} (hi : i < 4) : Memory.readByte t.mem (a.toNat + i) = v.extractLsb' (8 * i) 8 := by
  obtain ⟨-, -, rfl⟩ := State.memWrite_ok_iff.1 h
  exact Memory.readByte_writeWord hm a.toNat v hi

end Sys2Proof.Machine
end

section
/-! The statements about word accesses (20_memory.md R42 and R44). -/

namespace Sys2Proof

open Sys2Proof.Machine

/-- Settles O28: the write by what stands at each of the four addresses after it, the read and the fetch because both
answer the word that `Memory.readWord` puts together. -/
theorem memoryIsLittleEndian : Obligations.MemoryIsLittleEndian := by
  refine ⟨fun s t a v hm hwrite => ?_, fun s a v hread => ?_, fun s w hfetch => ?_⟩
  · have hbyte {i : Nat} (hi : i < 4) := State.readByte_of_memWrite hm hwrite hi
    exact ⟨hbyte (i := 0) (by decide), hbyte (i := 1) (by decide), hbyte (i := 2) (by decide),
      hbyte (i := 3) (by decide)⟩
  · obtain ⟨-, -, hv⟩ := State.memRead_ok_iff.1 hread
    exact hv.trans (Memory.readWord_eq_append s.mem a.toNat)
  · obtain ⟨-, -, hw⟩ := State.fetch_ok_iff.1 hfetch
    exact hw.trans (Memory.readWord_eq_append s.mem s.pc.toNat)

/-- Settles O29: of the two checks alignment comes first, for the host's accesses and for those of LW and SW. -/
theorem misalignedWordAccessAlwaysFails : Obligations.MisalignedWordAccessAlwaysFails :=
  ⟨fun _ _ _ hmisaligned =>
      ⟨State.memRead_error_iff.2 (.inl ⟨hmisaligned, rfl⟩), State.memWrite_error_iff.2 (.inl ⟨hmisaligned, rfl⟩)⟩,
    fun _ _ _ _ hmisaligned => execLw_fault_iff.2 (.inl ⟨hmisaligned, rfl⟩),
    fun _ _ _ _ hmisaligned => commitStore_fault_iff.2 (.inl ⟨hmisaligned, rfl⟩)⟩

end Sys2Proof
end

section
/-! SUPPORT. The two answers of the decoder (40_decoder.md R102, R103). -/

namespace Sys2Proof

/-- Every leaf of the decoder's tree of checks is an instruction or the one refusal. -/
theorem decode_ok_or_unknown (bop : BitVec 7) (w : Word) :
    (∃ i, decode bop w = .ok i) ∨ decode bop w = .error (.unknownInstruction w) := by
  have known (i : Instr) : (∃ j, (.ok i : Except DecodeError Instr) = .ok j) ∨ .ok i = unknown w := .inl ⟨i, rfl⟩
  have refused : (∃ i, unknown w = .ok i) ∨ unknown w = unknown w := .inr rfl
  change _ ∨ _ = unknown w
  unfold decode
  split_ifs
  -- One line per opcode the decoder tells apart, in its order; the last is every other opcode.
  exacts [
    known _, known _, refused,
    known _, refused,
    known _, refused,
    known _, refused,
    known _,
    known _, refused,
    refused]

end Sys2Proof
end

section
/-! The statement about the decoder's error (40_decoder.md R103). -/

namespace Sys2Proof

/-- Settles O8: an answer that is no instruction is the refusal of the word, and the decoder has one answer for a word. -/
theorem decodeErrorCarriesTheWord : Obligations.DecodeErrorCarriesTheWord := by
  intro bop w e herror
  obtain ⟨i, hok⟩ | hunknown := decode_ok_or_unknown bop w
  · exact nomatch hok.symm.trans herror
  · exact Except.error.inj (herror.symm.trans hunknown)

end Sys2Proof
end

section
/-! SUPPORT. What a masked word says of the fields, and the decoder's answer to the words of the rows ADD, SUB and LUI
(30_encoding.md R80). -/

namespace Sys2Proof

theorem and_maskR_eq_iff {w : Word} {f7 : BitVec 7} {f3 : BitVec 3} {op : BitVec 7} :
    w &&& 0xFE00707F#32 = encodeR f7 0#5 0#5 f3 0#5 op ↔
      funct7Field w = f7 ∧ funct3Field w = f3 ∧ opcodeField w = op := by
  simp [and_maskR, encodeR_inj]

theorem and_maskOp_eq_iff {w : Word} {op : BitVec 7} :
    w &&& 0x0000007F#32 = encodeR 0#7 0#5 0#5 0#3 0#5 op ↔ opcodeField w = op := by
  simp [and_maskOp, encodeR_inj]

theorem decode_of_add_row (bop : BitVec 7) {w : Word} (h : w &&& 0xFE00707F#32 = 0x00000033#32) :
    decode bop w = .ok (.add (rdField w) (rs1Field w) (rs2Field w)) := by
  obtain ⟨h7, h3, hop⟩ : funct7Field w = 0x00#7 ∧ funct3Field w = 0#3 ∧ opcodeField w = 0x33#7 := and_maskR_eq_iff.1 h
  simp [decode, hop, h3, h7]

theorem decode_of_sub_row (bop : BitVec 7) {w : Word} (h : w &&& 0xFE00707F#32 = 0x40000033#32) :
    decode bop w = .ok (.sub (rdField w) (rs1Field w) (rs2Field w)) := by
  obtain ⟨h7, h3, hop⟩ : funct7Field w = 0x20#7 ∧ funct3Field w = 0#3 ∧ opcodeField w = 0x33#7 := and_maskR_eq_iff.1 h
  simp [decode, hop, h3, h7]

theorem decode_of_lui_row (bop : BitVec 7) {w : Word} (h : w &&& 0x0000007F#32 = 0x00000037#32) :
    decode bop w = .ok (.lui (rdField w) (immUField w)) := by
  have hop : opcodeField w = 0x37#7 := and_maskOp_eq_iff.1 h
  simp [decode, hop]

end Sys2Proof
end

section
/-! SUPPORT. What a committed register write leaves behind (44_sequencer.md R143), and the word LUI writes (30_encoding.md
R84). -/

namespace Sys2Proof.Machine

/-- A committed register write completes, whatever the destination, and nothing but the destination and the pc differs. -/
theorem commitRegister_writes (s : State) (rd : RegIdx) (v : Word) :
    ∃ t, commitRegister s rd v = .next t ∧ WritesRegister s t rd v :=
  ⟨(s.writeReg rd v).setPc s.pcNext, commitRegister_eq s rd v,
    { regs := fun r => State.readReg_writeReg s rd r v
      bytes := fun a => congrArg (Memory.readByte · a) (State.writeReg_mem s rd v)
      pc := rfl
      cfg := State.writeReg_cfg s rd v }⟩

/-- The same with the written word given by its number. -/
theorem commitRegister_writes_ofNat (s : State) (rd : RegIdx) {v : Word} {n : Nat} (h : v.toNat = n) :
    ∃ t, commitRegister s rd v = .next t ∧ WritesRegister s t rd (BitVec.ofNat 32 n) := by
  obtain ⟨-, rfl⟩ := BitVec.toNat_eq_nat.1 h
  exact commitRegister_writes s rd _

theorem toNat_immU (imm20 : BitVec 20) : (immU imm20).toNat = imm20.toNat * 2 ^ 12 :=
  calc (immU imm20).toNat = imm20.toNat <<< 12 ||| (0#12).toNat := BitVec.toNat_append imm20 0#12
    _ = imm20.toNat * 2 ^ 12 := by simp [Nat.shiftLeft_eq]

/-- The mask `0xFFFFF000` keeps the upper 20 bits, which LUI writes, and clears the rest. -/
theorem immU_immUField (w : Word) : immU (immUField w) = w &&& 0xFFFFF000#32 := by
  have hsplit : immUField w ++ w.extractLsb' 0 12 = w :=
    (BitVec.extractLsb'_append_extractLsb'_eq_extractLsb' rfl).trans BitVec.extractLsb'_eq_self
  calc immU (immUField w)
    _ = (immUField w &&& BitVec.allOnes 20) ++ (w.extractLsb' 0 12 &&& 0#12) := by
      rw [BitVec.and_allOnes, BitVec.and_zero, immU]
    _ = (immUField w ++ w.extractLsb' 0 12) &&& (BitVec.allOnes 20 ++ 0#12) := BitVec.and_append.symm
    _ = w &&& 0xFFFFF000#32 := congrArg (· &&& 0xFFFFF000#32) hsplit

end Sys2Proof.Machine
end

section
/-! The statements about ADD, SUB and LUI (41_alu.md R111, R112, R114). -/

namespace Sys2Proof

open Sys2Proof.Machine

/-- Settles O12: ADD commits the machine's sum, whose number is the sum modulo 2^32. -/
theorem addWritesTheSumModulo : Obligations.AddWritesTheSumModulo :=
  ⟨fun s rd rs1 rs2 => commitRegister_writes_ofNat s rd (BitVec.toNat_add (s.readReg rs1) (s.readReg rs2)),
    fun bop _ hrow => decode_of_add_row bop hrow⟩

/-- Settles O13: SUB commits the machine's difference, whose number is the minuend plus 2^32 less the subtrahend, modulo
2^32. -/
theorem subWritesTheDifferenceModulo : Obligations.SubWritesTheDifferenceModulo := by
  refine ⟨fun s rd rs1 rs2 => commitRegister_writes_ofNat s rd ?_, fun bop _ hrow => decode_of_sub_row bop hrow⟩
  rw [BitVec.toNat_sub', Nat.add_sub_assoc (s.readReg rs2).isLt.le (s.readReg rs1).toNat]

/-- Settles O15: LUI commits its immediate shifted by 12, which for a word of its row is the word under `0xFFFFF000`. -/
theorem luiWritesTheUpperImmediate : Obligations.LuiWritesTheUpperImmediate := by
  refine ⟨fun s rd imm20 => commitRegister_writes_ofNat s rd (toNat_immU imm20),
    fun bop w hrow => ⟨decode_of_lui_row bop hrow, fun s => ?_⟩⟩
  rw [← immU_immUField w]
  exact commitRegister_writes s (rdField w) (immU (immUField w))

end Sys2Proof
end

section
/-! SUPPORT. The phases of a step (44_sequencer.md R141) and the ways a run ends in an error (R145, R148). -/

namespace Sys2Proof.Machine

theorem step_of_decode_ok {s : State} {w : Word} {i : Instr} (hfetch : s.fetch = .ok w)
    (hdecode : decode s.cfg.branchOpcode w = .ok i) : step s = exec i s := by
  rw [step, State.fetchDecode_ok_iff.2 ⟨w, hfetch, hdecode⟩]

/-- Only the fetch raises `FetchOutOfBounds`, and it reports the pc. -/
theorem pc_of_step_fetchOutOfBounds {s : State} {p : Word} (h : step s = .fault (.fetchOutOfBounds p)) : s.pc = p := by
  obtain hfetch | ⟨w, d, -, -, hdecode⟩ | ⟨w, i, -, -, hexec⟩ := step_fault_iff.1 h
  · obtain ⟨-, hp⟩ | ⟨-, -, hp⟩ := State.fetch_error_iff.1 hfetch
    · exact (Fault.fetchOutOfBounds.inj hp).symm
    · cases hp
  · cases d; cases hdecode
  · obtain ⟨a, -, ⟨-, hp⟩ | ⟨-, -, hp⟩⟩ := exec_fault_cases hexec
    · cases hp
    · cases hp

/-- A run ends in an error because its first step fails with it, or because that step completes and the rest of the run
ends in the error. The sentinel's round ends no run in an error. -/
theorem runFor_succ_error_cases {n : Nat} {s t : State} {e : Fault} (h : runFor (n + 1) s = .error e t) :
    (step s = .fault e ∧ t = s) ∨ ∃ u, step s = .next u ∧ runFor n u = .error e t := by
  rw [runFor] at h
  split at h
  case h_1 e' hfetch =>
    cases h
    exact .inl ⟨step_fault_iff.2 (.inl hfetch), rfl⟩
  case h_2 w hfetch =>
    split at h
    · cases h
    · split at h
      case h_1 u hstep => exact .inr ⟨u, hstep, h⟩
      case h_2 e' hstep =>
        cases h
        exact .inl ⟨hstep, rfl⟩
      case h_3 => cases h

/-- By induction on the fuel: a run that ends in an error has completed every step before the one that fails. -/
theorem runFor_error_steps {n : Nat} {s t : State} {e : Fault} (h : runFor n s = .error e t) :
    Steps s t ∧ step t = .fault e := by
  induction n generalizing s with
  | zero => cases h
  | succ n ih =>
    obtain ⟨hfault, rfl⟩ | ⟨u, hnext, hrest⟩ := runFor_succ_error_cases h
    · exact ⟨.refl _, hfault⟩
    · obtain ⟨hsteps, hfault⟩ := ih hrest
      exact ⟨.step hnext hsteps, hfault⟩

end Sys2Proof.Machine
end

section
/-! The statements about the step's phases and a failed run (44_sequencer.md R141, R148). -/

namespace Sys2Proof

open Sys2Proof.Machine

/-- Settles O46: the run's steps up to the failing one complete, and of a step's errors `FetchOutOfBounds` reports the
pc. -/
theorem aFailedRunStopsBeforeTheFailingStep : Obligations.AFailedRunStopsBeforeTheFailingStep := by
  rintro s t e ⟨n, hrun⟩
  obtain ⟨hsteps, hfault⟩ := runFor_error_steps hrun
  refine ⟨hsteps, hfault, ?_⟩
  rintro p rfl
  exact pc_of_step_fetchOutOfBounds hfault

/-- Settles O35: one clause per phase; the decoder's only other answer is the refusal of the word. -/
theorem firstFailingPhaseEndsTheStep : Obligations.FirstFailingPhaseEndsTheStep := by
  refine fun s => ⟨fun e hfetch => step_fault_iff.2 (.inl hfetch), fun w hfetch hnone => ?_,
    fun w i hfetch hdecode => step_of_decode_ok hfetch hdecode⟩
  obtain ⟨i, hok⟩ | hunknown := decode_ok_or_unknown s.cfg.branchOpcode w
  · exact absurd hok (hnone i)
  · exact step_fault_iff.2 (.inr (.inl ⟨w, .unknownInstruction w, hfetch, hunknown, rfl⟩))

end Sys2Proof
end

section
/-! SUPPORT. Which errors the fetch and the decode phase of a step raise (60_exceptions.md R162, R163, R165), and what
the host port's answers say of the state they leave (R161). -/

namespace Sys2Proof.Machine

/-- Both errors of the fetch report the pc. -/
theorem State.fetch_error_cases {s : State} {e : Fault} (h : s.fetch = .error e) :
    e = .fetchOutOfBounds s.pc ∨ e = .misalignedAccess s.pc :=
  (State.fetch_error_iff.1 h).imp (fun ⟨_, he⟩ => he) (fun ⟨_, _, he⟩ => he)

theorem faultOfDecodeError_of_decode_error {bop : BitVec 7} {w : Word} {d : DecodeError}
    (h : decode bop w = .error d) : faultOfDecodeError d = .unknownInstruction w :=
  congrArg faultOfDecodeError (decodeErrorCarriesTheWord bop w d h)

theorem stateResponse_error_state {s t : State} {r : Except Fault State} {e : Fault}
    (h : stateResponse s r = (.error e, t)) : t = s := by
  cases r with
  | ok u => cases h
  | error e' => cases h; rfl

theorem State.afterStep_of_step_fault {s : State} {e : Fault} (h : step s = .fault e) : s.afterStep = s := by
  rw [State.afterStep, h]

theorem runResponse_error_iff {r : RunResult} {e : Fault} {t : State} :
    runResponse r = (.error e, t) ↔ r = .error e t := by
  cases r <;> simp [runResponse]

/-- Among the commands other than run, those that can change the state and answer an error are the ones that yield a
state or an error; the others keep the state, or answer no error. -/
theorem hostCommand_error_state {s t : State} {e : Fault} {cmd : HostCommand} (hrun : ∀ n, cmd ≠ .run n)
    (h : hostCommand s cmd = (.error e, t)) : t = s := by
  cases cmd with
  | reset => cases h
  | step => cases h
  | getReg sel => exact (congrArg Prod.snd h).symm
  | readWord addr => exact (congrArg Prod.snd h).symm
  | loadImage bytes atOffset => exact stateResponse_error_state h
  | setReg sel v => exact stateResponse_error_state h
  | writeWord addr v => exact stateResponse_error_state h
  | run n => exact absurd rfl (hrun n)

end Sys2Proof.Machine
end

section
/-! The statements about errors (60_exceptions.md R161, R168). -/

namespace Sys2Proof

open Sys2Proof.Machine

/-- Settles O24: an instruction's error is that of LW's or SW's checked access, and a step's error comes from its fetch,
which reports the pc, from its decoder, which reports the word, or from the instruction. -/
theorem onlyLoadsAndStoresCanFail : Obligations.OnlyLoadsAndStoresCanFail := by
  refine ⟨fun s i e hexec => ?_, fun s e hstep => ?_⟩
  · obtain ⟨a, haccess, hraised⟩ := exec_fault_cases hexec
    have herror : e = .misalignedAccess a ∨ e = .outOfBounds a :=
      hraised.imp (fun ⟨_, he⟩ => he) (fun ⟨_, _, he⟩ => he)
    obtain ⟨rd, rs1, imm, hlw, rfl⟩ | ⟨rs1, rs2, imm, hsw, rfl⟩ := haccess
    · exact .inl ⟨rd, rs1, imm, hlw, herror⟩
    · exact .inr ⟨rs1, rs2, imm, hsw, herror⟩
  · obtain hfetch | ⟨w, d, hfetch, hdecode, rfl⟩ | hinstr := step_fault_iff.1 hstep
    · exact (State.fetch_error_cases hfetch).imp_right .inl
    · exact .inr (.inr (.inl ⟨w, hfetch, faultOfDecodeError_of_decode_error hdecode⟩))
    · exact .inr (.inr (.inr hinstr))

/-- Settles O44: the port's answers keep the state on an error, and a run that answers an error has stopped before the
step that fails with it. -/
theorem anErrorChangesNothing : Obligations.AnErrorChangesNothing :=
  ⟨fun _ _ _ _ hrun herror => hostCommand_error_state hrun herror,
    fun _ _ hstep => State.afterStep_of_step_fault hstep,
    fun _ _ _ _ hrun => (runFor_error_steps (runResponse_error_iff.1 hrun)).2⟩

end Sys2Proof
end

section
/-! SUPPORT. The decoder and the encoder undo each other (40_decoder.md R106). -/

namespace Sys2Proof

/-- A decoded instruction holds its row's fields, so encoding it puts the word together again from them. -/
theorem encode_of_decode_ok {bop : BitVec 7} {w : Word} {i : Instr} (h : decode bop w = .ok i) : encode bop i = w := by
  obtain ⟨hop, h3, h7, rfl⟩ | ⟨hop, h3, h7, rfl⟩ | ⟨hop, h3, rfl⟩ | ⟨hop, h3, rfl⟩ | ⟨hop, h3, rfl⟩ | ⟨hop, rfl⟩ |
    ⟨hop, h3, rfl⟩ := decode_ok_cases h
  · rw [encode, ← h7, ← h3, ← hop, encodeR_fields]
  · rw [encode, ← h7, ← h3, ← hop, encodeR_fields]
  · rw [encode, ← h3, ← hop, encodeI_fields]
  · rw [encode, ← h3, ← hop, encodeI_fields]
  · rw [encode, ← h3, ← hop, encodeS_fields]
  · rw [encode, ← hop, encodeU_fields]
  · rw [encode, ← h3, ← hop, encodeB_fields]

theorem wellFormed_of_decode_ok {bop : BitVec 7} {w : Word} {i : Instr} (h : decode bop w = .ok i) :
    i.wellFormed = true := by
  obtain ⟨-, -, -, rfl⟩ | ⟨-, -, -, rfl⟩ | ⟨-, -, rfl⟩ | ⟨-, -, rfl⟩ | ⟨-, -, rfl⟩ | ⟨-, rfl⟩ | ⟨-, -, rfl⟩ :=
    decode_ok_cases h
  exacts [rfl, rfl, rfl, rfl, rfl, rfl, by simp [Instr.wellFormed]]

theorem Instr.isSentinel_iff {i : Instr} : i.isSentinel = true ↔ ∃ ignored, i = .halt ignored := by
  cases i <;> simp [Instr.isSentinel]

/-- Only the sentinel's word has the opcode 0x00, because no admitted branch opcode is 0x00. -/
theorem isSentinelWord_encode {c : Config} (hc : c.valid) (i : Instr) :
    isSentinelWord (encode c.branchOpcode i) = i.isSentinel := by
  cases i <;> simp [isSentinelWord, encode, Instr.isSentinel, hc.branchOpcode_ne]

/-- The fields of an encoded word are the ones encoded, and its opcode leads the decoder to its row. -/
theorem decode_encode {c : Config} (hc : c.valid) {i : Instr} (hwf : i.wellFormed = true) (hs : i.isSentinel = false) :
    decode c.branchOpcode (encode c.branchOpcode i) = .ok i := by
  cases i with
  | halt => cases hs
  | beq rs1 rs2 off =>
    have heven : off[0] = false := by simpa [Instr.wellFormed] using hwf
    simp [decode, encode, hc.branchOpcode_ne, immBField_encodeB _ _ _ _ _ heven]
  | _ => simp [decode, encode]

theorem recognise_encode_halt (bop : BitVec 7) (ignored : BitVec 25) :
    recognise bop (encode bop (.halt ignored)) = .ok (.halt ignored) := by
  simp [recognise, isSentinelWord, encode]

end Sys2Proof
end

section
/-! The statements about the round trips of decoder and encoder (40_decoder.md R106, laws (a) and (b)). -/

namespace Sys2Proof

/-- Settles O2: the sentinel's word by its opcode, every other word by its row's fields. -/
theorem decodeOfEncodeGivesTheInstruction : Obligations.DecodeOfEncodeGivesTheInstruction := by
  intro c i hc hwf
  have hword : isSentinelWord (encode c.branchOpcode i) = i.isSentinel := isSentinelWord_encode hc i
  cases hs : i.isSentinel with
  | true =>
    obtain ⟨ignored, rfl⟩ := Instr.isSentinel_iff.1 hs
    exact ⟨recognise_encode_halt c.branchOpcode ignored, decode_sentinelWord hc (hword.trans hs)⟩
  | false =>
    have hdecode := decode_encode hc hwf hs
    rw [recognise_eq, hword, hs]
    exact ⟨hdecode, hdecode⟩

/-- Settles O3: the word is made of the fields that the decoder checked or copied, BEQ's offset is even by its place,
and no row of the decoder is the sentinel's. -/
theorem encodeOfDecodeGivesTheWord : Obligations.EncodeOfDecodeGivesTheWord :=
  fun _ _ _ hok => ⟨encode_of_decode_ok hok, wellFormed_of_decode_ok hok, decode_not_sentinel hok⟩

end Sys2Proof
end

section
/-! SUPPORT. What one round of a run does (44_sequencer.md R145, R146) and what a run ends in. -/

namespace Sys2Proof.Machine

/-- The state fetches a sentinel's word, at which the run mode stops. -/
def State.AtSentinel (s : State) : Prop := ∃ w, s.fetch = .ok w ∧ isSentinelWord w = true

theorem exec_next_or_fault (i : Instr) (s : State) : (∃ t, exec i s = .next t) ∨ ∃ e, exec i s = .fault e := by
  cases h : exec i s with
  | next t => exact .inl ⟨t, rfl⟩
  | fault e => exact .inr ⟨e, rfl⟩
  | refused r => exact absurd h (exec_ne_refused i s r)

theorem step_next_or_fault (s : State) : (∃ t, step s = .next t) ∨ ∃ e, step s = .fault e := by
  unfold step
  split
  case h_1 i hdecoded => exact exec_next_or_fault i s
  case h_2 e hfailed => exact .inr ⟨e, rfl⟩

/-- The decoder does not know the word, so a single step reports it (R142). -/
theorem step_fault_of_sentinel {s : State} {w : Word} (hc : s.cfg.valid) (hfetch : s.fetch = .ok w)
    (hw : isSentinelWord w = true) : step s = .fault (.unknownInstruction w) :=
  step_fault_iff.2 (.inr (.inl ⟨w, .unknownInstruction w, hfetch, decode_sentinelWord hc hw, rfl⟩))

theorem State.not_atSentinel_of_step_next {s t : State} (hc : s.cfg.valid) (h : step s = .next t) : ¬s.AtSentinel := by
  rintro ⟨w, hfetch, hw⟩
  cases h.symm.trans (step_fault_of_sentinel hc hfetch hw)

theorem runFor_succ_of_atSentinel {s : State} (h : s.AtSentinel) (n : Nat) : runFor (n + 1) s = .halted s := by
  obtain ⟨w, hfetch, hw⟩ := h
  simp [runFor, hfetch, hw, exec, execHalt]

theorem runFor_succ_of_step_next {s t : State} (hs : ¬s.AtSentinel) (h : step s = .next t) (n : Nat) :
    runFor (n + 1) s = runFor n t := by
  obtain ⟨w, i, hfetch, -, -⟩ := step_next_iff.1 h
  have hw : isSentinelWord w ≠ true := fun hw => hs ⟨w, hfetch, hw⟩
  simp [runFor, hfetch, hw, h]

theorem runFor_succ_of_step_fault {s : State} {e : Fault} (hs : ¬s.AtSentinel) (h : step s = .fault e) (n : Nat) :
    runFor (n + 1) s = .error e s := by
  rw [runFor]
  split
  case h_1 e' hfetch => cases h.symm.trans (step_fault_iff.2 (.inl hfetch)); rfl
  case h_2 w hfetch =>
    have hw : isSentinelWord w ≠ true := fun hw => hs ⟨w, hfetch, hw⟩
    simp [hw, h]

/-- The three kinds of round: at the sentinel, and elsewhere by the step's outcome. -/
theorem round_cases (s : State) :
    s.AtSentinel ∨ ¬s.AtSentinel ∧ ((∃ t, step s = .next t) ∨ ∃ e, step s = .fault e) :=
  (em s.AtSentinel).imp_right fun hs => ⟨hs, step_next_or_fault s⟩

/-- The state in which a run stands. -/
def RunResult.final : RunResult → State
  | .halted t => t
  | .error _ t => t
  | .refused _ t => t
  | .noResult t => t

theorem runResponse_state (r : RunResult) : (runResponse r).2 = r.final := by cases r <;> rfl

/-- A run's final state is reached by completed steps. -/
theorem steps_runFor_final (n : Nat) (s : State) : Steps s (runFor n s).final := by
  induction n generalizing s with
  | zero => exact .refl s
  | succ n ih =>
    obtain hs | ⟨hs, ⟨t, hnext⟩ | ⟨e, hfault⟩⟩ := round_cases s
    · rw [runFor_succ_of_atSentinel hs]; exact .refl s
    · rw [runFor_succ_of_step_next hs hnext]; exact .step hnext (ih t)
    · rw [runFor_succ_of_step_fault hs hfault]; exact .refl s

end Sys2Proof.Machine

namespace Sys2Proof

open Sys2Proof.Machine

/-- What every step keeps holds of every state reached. -/
theorem Steps.induct {P : State → Prop} (hkeep : ∀ s t, P s → Machine.step s = .next t → P t) {s t : State}
    (h : Steps s t) (hs : P s) : P t := by
  induction h with
  | refl => exact hs
  | step hnext _ ih => exact ih (hkeep _ _ hs hnext)

end Sys2Proof
end

section
/-! SUPPORT. The machine's invariant under each operation of the state. -/

namespace Sys2Proof

open Sys2Proof.Machine

theorem exec_next_cfg {i : Instr} {s t : State} (h : exec i s = .next t) : t.cfg = s.cfg := by
  obtain ⟨rd, v, -, rfl⟩ | ⟨rs1, rs2, imm, -, -, -, rfl⟩ | ⟨rs1, rs2, off, -, rfl⟩ | ⟨ignored, -, rfl⟩ :=
    exec_next_cases h
  · exact State.writeReg_cfg s rd v
  all_goals rfl

theorem step_next_cfg {s t : State} (h : step s = .next t) : t.cfg = s.cfg := by
  obtain ⟨w, i, -, -, hexec⟩ := step_next_iff.1 h
  exact exec_next_cfg hexec

theorem Steps.cfg_eq {s t : State} (h : Steps s t) : t.cfg = s.cfg :=
  h.induct (P := fun u => u.cfg = s.cfg) (fun _ _ hu hnext => (step_next_cfg hnext).trans hu) rfl

namespace MachineInv

theorem resetWith {c : Config} (hc : c.valid) : MachineInv (State.resetWith c) where
  cfg_valid := hc
  mem_wf := Memory.wf_nil
  mem_inRange := nofun
  x0_zero := by simp

variable {s t : State} (h : MachineInv s)
include h

theorem setPc (p : Word) : MachineInv (s.setPc p) where
  cfg_valid := h.cfg_valid
  mem_wf := h.mem_wf
  mem_inRange := h.mem_inRange
  x0_zero := h.x0_zero

theorem writeReg (r : RegIdx) (v : Word) : MachineInv (s.writeReg r v) where
  cfg_valid := by simpa using h.cfg_valid
  mem_wf := by simpa using h.mem_wf
  mem_inRange := by simpa using h.mem_inRange
  x0_zero := by simpa using h.x0_zero

/-- Bytes written inside memory. -/
theorem writeBytes {a : Nat} {bs : List Byte} (ha : a + bs.length ≤ s.cfg.memSize) :
    MachineInv (s.setMem (Memory.writeBytes s.mem a bs)) where
  cfg_valid := h.cfg_valid
  mem_wf := Memory.wf_writeBytes h.mem_wf a bs
  mem_inRange := Memory.writeBytes_inRange h.mem_inRange ha
  x0_zero := h.x0_zero

theorem writeWord {a v : Word} (ha : wordInBounds s.cfg a) :
    MachineInv (s.setMem (Memory.writeWord s.mem a.toNat v)) :=
  h.writeBytes ha

theorem placeWord (w : Word) : MachineInv (s.placeWord w) := by
  obtain ⟨hbounds, -⟩ := State.fetchAddress_fetchable h.cfg_valid
  exact (h.writeWord hbounds).setPc s.fetchAddress

theorem exec_next {i : Instr} (hexec : exec i s = .next t) : MachineInv t := by
  obtain ⟨rd, v, -, rfl⟩ | ⟨rs1, rs2, imm, -, -, hbounds, rfl⟩ | ⟨rs1, rs2, off, -, rfl⟩ | ⟨ignored, -, rfl⟩ :=
    exec_next_cases hexec
  · exact (h.writeReg rd v).setPc _
  · exact (h.writeWord hbounds).setPc _
  · exact h.setPc _
  · exact h

theorem step_next (hstep : step s = .next t) : MachineInv t := by
  obtain ⟨w, i, -, -, hexec⟩ := step_next_iff.1 hstep
  exact h.exec_next hexec

theorem steps (hsteps : Steps s t) : MachineInv t :=
  hsteps.induct (fun _ _ hu hnext => hu.step_next hnext) h

end MachineInv

end Sys2Proof
end

section
/-! SUPPORT. The state that a host command leaves (10_state.md R31). -/

namespace Sys2Proof.Machine

/-- All that a host command can leave: a state reached by completed steps, the state itself among them; the reset under
its parameters; a register written; bytes written inside memory. -/
theorem hostCommand_state_cases (s : State) (cmd : HostCommand) :
    Steps s (hostCommand s cmd).2 ∨
    (hostCommand s cmd).2 = State.resetWith s.cfg ∨
    (∃ r v, (hostCommand s cmd).2 = s.writeReg r v) ∨
    (∃ a bs, a + List.length bs ≤ s.cfg.memSize ∧ (hostCommand s cmd).2 = s.setMem (Memory.writeBytes s.mem a bs)) := by
  cases cmd with
  | reset => exact .inr (.inl rfl)
  | getReg sel => exact .inl (.refl s)
  | readWord addr => exact .inl (.refl s)
  | setReg sel v =>
    simp only [hostCommand, State.setRegister]
    split
    case h_1 r hr => exact .inr (.inr (.inl ⟨r, v, rfl⟩))
    case h_2 => exact .inl (.refl s)
  | loadImage bytes atOffset =>
    simp only [hostCommand, State.loadImage]
    split
    case isTrue hbounds => exact .inr (.inr (.inr ⟨atOffset.toNat, bytes, hbounds, rfl⟩))
    case isFalse => exact .inl (.refl s)
  | writeWord addr v =>
    simp only [hostCommand]
    cases hwrite : s.memWrite addr v with
    | ok t =>
      obtain ⟨-, hbounds, rfl⟩ := State.memWrite_ok_iff.1 hwrite
      exact .inr (.inr (.inr ⟨addr.toNat, bytesOfWord v, hbounds, rfl⟩))
    | error e => exact .inl (.refl s)
  | step =>
    simp only [hostCommand, State.afterStep]
    split
    case h_1 t hnext => exact .inl (.step hnext (.refl t))
    all_goals exact .inl (.refl s)
  | run fuel =>
    rw [hostCommand, runResponse_state]
    exact .inl (steps_runFor_final fuel s)

end Sys2Proof.Machine
end

section
/-! The statements about reset, the invariant and the parameters (10_state.md sections 2, 4 and 7;
70_reset_and_hazards.md section 1). -/

namespace Sys2Proof

open Sys2Proof.Machine

/-- Settles O41: a completed instruction writes a register, a word inside memory or the pc, each of which keeps it. -/
theorem everyStepKeepsTheInvariant : Obligations.EveryStepKeepsTheInvariant :=
  fun _ _ hinv hnext => hinv.step_next hnext

/-- Settles O42: by what a command can leave; a run's state is reached by steps, each of which keeps the invariant. -/
theorem everyHostCommandKeepsTheInvariant : Obligations.EveryHostCommandKeepsTheInvariant := by
  intro s cmd hinv
  obtain hsteps | hreset | ⟨r, v, hreg⟩ | ⟨a, bs, hbounds, hmem⟩ := hostCommand_state_cases s cmd
  · exact hinv.steps hsteps
  · rw [hreset]; exact .resetWith hinv.cfg_valid
  · rw [hreg]; exact hinv.writeReg r v
  · rw [hmem]; exact hinv.writeBytes hbounds

/-- Settles O43: no write touches the parameters, reset takes them over, and a run's state is reached by steps. -/
theorem parametersNeverChange : Obligations.ParametersNeverChange := by
  refine ⟨fun s t hnext => step_next_cfg hnext, fun s cmd => ?_⟩
  obtain hsteps | hreset | ⟨r, v, hreg⟩ | ⟨a, bs, -, hmem⟩ := hostCommand_state_cases s cmd
  · exact hsteps.cfg_eq
  · rw [hreset, State.resetWith_cfg]
  · rw [hreg, State.writeReg_cfg]
  · rw [hmem, State.setMem_cfg]

/-- Settles O40: reset memory lists nothing and every slot of the reset register file is 0. -/
theorem resetHasTheInvariant : Obligations.ResetHasTheInvariant :=
  ⟨.resetWith Config.default_valid, fun _ hc => .resetWith hc⟩

end Sys2Proof
end

section
/-! SUPPORT. The decoder's answer to the words of the rows ADDI, LW, SW and BEQ, and the opcode map as a description of
the decoder (30_encoding.md R80). -/

namespace Sys2Proof

theorem and_maskF3_eq_iff {w : Word} {f3 : BitVec 3} {op : BitVec 7} :
    w &&& 0x0000707F#32 = encodeR 0#7 0#5 0#5 f3 0#5 op ↔ funct3Field w = f3 ∧ opcodeField w = op := by
  simp [and_maskF3, encodeR_inj]

theorem decode_of_addi_row (bop : BitVec 7) {w : Word} (h : w &&& 0x0000707F#32 = 0x00000013#32) :
    decode bop w = .ok (.addi (rdField w) (rs1Field w) (immIField w)) := by
  obtain ⟨h3, hop⟩ : funct3Field w = 0#3 ∧ opcodeField w = 0x13#7 := and_maskF3_eq_iff.1 h
  simp [decode, hop, h3]

theorem decode_of_lw_row (bop : BitVec 7) {w : Word} (h : w &&& 0x0000707F#32 = 0x00002003#32) :
    decode bop w = .ok (.lw (rdField w) (rs1Field w) (immIField w)) := by
  obtain ⟨h3, hop⟩ : funct3Field w = 2#3 ∧ opcodeField w = 0x03#7 := and_maskF3_eq_iff.1 h
  simp [decode, hop, h3]

theorem decode_of_sw_row (bop : BitVec 7) {w : Word} (h : w &&& 0x0000707F#32 = 0x00002023#32) :
    decode bop w = .ok (.sw (rs1Field w) (rs2Field w) (immSField w)) := by
  obtain ⟨h3, hop⟩ : funct3Field w = 2#3 ∧ opcodeField w = 0x23#7 := and_maskF3_eq_iff.1 h
  simp [decode, hop, h3]

theorem decode_of_beq_row {c : Config} (hc : c.valid) {w : Word}
    (h : w &&& 0x0000707F#32 = c.branchOpcode.setWidth 32) :
    decode c.branchOpcode w = .ok (.beq (rs1Field w) (rs2Field w) (immBField w)) := by
  rw [setWidth_branchOpcode] at h
  obtain ⟨h3, hop⟩ := and_maskF3_eq_iff.1 h
  simp [decode, hop, h3, hc.branchOpcode_ne]

theorem OpcodeRow.matchesWord_iff {r : OpcodeRow} {w : Word} : r.matchesWord w = true ↔ w &&& r.mask = r.bits :=
  beq_iff_eq

theorem sentinelRow_matchesWord_iff {w : Word} : sentinelRow.matchesWord w = true ↔ isSentinelWord w = true := by
  rw [OpcodeRow.matchesWord_iff, isSentinelWord, beq_iff_eq]
  exact and_maskOp_eq_iff (op := 0x00#7)

theorem mnemonics_nodup (bop : BitVec 7) : (opcodeMap bop).Pairwise (fun r q => r.mnemonic ≠ q.mnemonic) := by
  simp [opcodeMap]

theorem matchesItsRow (i : Instr) : Laws.MatchesItsRow.Statement i := by
  cases i with
  | add rd rs1 rs2 => exact Laws.MatchesItsRow.add rd rs1 rs2
  | sub rd rs1 rs2 => exact Laws.MatchesItsRow.sub rd rs1 rs2
  | addi rd rs1 imm => exact Laws.MatchesItsRow.addi rd rs1 imm
  | lw rd rs1 imm => exact Laws.MatchesItsRow.lw rd rs1 imm
  | sw rs1 rs2 imm => exact Laws.MatchesItsRow.sw rs1 rs2 imm
  | lui rd imm20 => exact Laws.MatchesItsRow.lui rd imm20
  | beq rs1 rs2 off => exact Laws.MatchesItsRow.beq rs1 rs2 off
  | halt ignored => exact Laws.MatchesItsRow.halt ignored

theorem exists_row_of_not_sentinel (bop : BitVec 7) {i : Instr} (h : i.isSentinel = false) :
    ∃ r ∈ opcodeMap bop, r.mnemonic = i.mnemonic := by
  cases i with
  | halt => cases h
  | _ => simp [opcodeMap, Instr.mnemonic]

theorem decode_of_matchesWord {c : Config} (hc : c.valid) {w : Word} {r : OpcodeRow} (hr : r ∈ opcodeMap c.branchOpcode)
    (h : r.matchesWord w = true) : ∃ i, decode c.branchOpcode w = .ok i ∧ i.mnemonic = r.mnemonic := by
  rw [OpcodeRow.matchesWord_iff] at h
  simp only [opcodeMap, List.mem_cons, List.not_mem_nil, or_false] at hr
  obtain rfl | rfl | rfl | rfl | rfl | rfl | rfl := hr
  · exact ⟨_, decode_of_add_row _ h, rfl⟩
  · exact ⟨_, decode_of_sub_row _ h, rfl⟩
  · exact ⟨_, decode_of_addi_row _ h, rfl⟩
  · exact ⟨_, decode_of_lw_row _ h, rfl⟩
  · exact ⟨_, decode_of_sw_row _ h, rfl⟩
  · exact ⟨_, decode_of_lui_row _ h, rfl⟩
  · exact ⟨_, decode_of_beq_row hc h, rfl⟩

/-- The word is the encoding of the instruction, and an encoding matches its row. -/
theorem matchesWord_of_decode {bop : BitVec 7} {w : Word} {i : Instr} {r : OpcodeRow} (hr : r ∈ opcodeMap bop)
    (hok : decode bop w = .ok i) (hname : i.mnemonic = r.mnemonic) : r.matchesWord w = true := by
  rw [← encode_of_decode_ok hok]
  exact matchesItsRow i bop r (List.mem_append_left _ hr) hname.symm

end Sys2Proof
end

section
/-! The statements about the opcode map (30_encoding.md R80, R90, R91). -/

namespace Sys2Proof

/-- Settles O6: the word of a row decodes to its instruction, and an instruction's word is its encoding,
which matches. -/
theorem aMatchingRowNamesTheInstruction : Obligations.AMatchingRowNamesTheInstruction :=
  fun _ _ hc _ hr => ⟨decode_of_matchesWord hc hr, fun ⟨_, hok, hname⟩ => matchesWord_of_decode hr hok hname⟩

/-- Settles O4: a matched word decodes, and a decoded word matches the row with its instruction's name. -/
theorem decodeRefusesExactlyTheUnmatchedWords : Obligations.DecodeRefusesExactlyTheUnmatchedWords := by
  intro c w hc
  constructor
  · intro hunknown r hr
    refine Bool.eq_false_iff.2 fun hmatch => ?_
    obtain ⟨i, hok, -⟩ := decode_of_matchesWord hc hr hmatch
    cases hok.symm.trans hunknown
  · intro hnone
    refine (decode_ok_or_unknown c.branchOpcode w).resolve_left fun ⟨i, hok⟩ => ?_
    obtain ⟨r, hr, hname⟩ := exists_row_of_not_sentinel c.branchOpcode (decode_not_sentinel hok)
    exact Bool.eq_false_iff.1 (hnone r hr) (matchesWord_of_decode hr hok hname.symm)

/-- Settles O5: a word that matches two rows of the decoder decodes to one instruction with both their names, and one
that matches the sentinel's row does not decode. -/
theorem opcodeRowsShareNoWord : Obligations.OpcodeRowsShareNoWord := by
  intro c hc
  refine List.pairwise_append.2 ⟨?_, List.pairwise_singleton .., ?_⟩
  · refine (mnemonics_nodup c.branchOpcode).imp_of_mem fun hr hq hne w hmatch => Bool.eq_false_iff.2 fun hmatch' => ?_
    obtain ⟨i, hi, hname⟩ := decode_of_matchesWord hc hr hmatch
    obtain ⟨j, hj, hname'⟩ := decode_of_matchesWord hc hq hmatch'
    obtain rfl : i = j := Except.ok.inj (hi.symm.trans hj)
    exact hne (hname.symm.trans hname')
  · intro r hr q hq w hmatch
    obtain rfl := List.mem_singleton.1 hq
    refine Bool.eq_false_iff.2 fun hsentinel => ?_
    obtain ⟨i, hok, -⟩ := decode_of_matchesWord hc hr hmatch
    cases hok.symm.trans (decode_sentinelWord hc (sentinelRow_matchesWord_iff.1 hsentinel))

/-- Settles O1: the decoder evaluated at each of the seven words. -/
theorem decoderReadsTheSpecsWords : Obligations.DecoderReadsTheSpecsWords := by
  unfold Obligations.DecoderReadsTheSpecsWords
  decide

end Sys2Proof
end

section
/-! SUPPORT. The operands of the seven rows, counted. -/

namespace Sys2Proof

/-- The free fields of the rows of R80: ADD and SUB, then ADDI, LW, SW and BEQ, whose offset has 12 free bits, then
LUI. -/
abbrev LegalOperands : Type :=
  ((RegIdx × RegIdx × RegIdx) ⊕ (RegIdx × RegIdx × RegIdx)) ⊕
  (((RegIdx × RegIdx × BitVec 12) ⊕ (RegIdx × RegIdx × BitVec 12)) ⊕
    ((RegIdx × RegIdx × BitVec 12) ⊕ (RegIdx × RegIdx × BitVec 12))) ⊕ (RegIdx × BitVec 20)

/-- The instruction with the given operands. -/
def LegalOperands.instr : LegalOperands → Instr
  | .inl (.inl (rd, rs1, rs2)) => .add rd rs1 rs2
  | .inl (.inr (rd, rs1, rs2)) => .sub rd rs1 rs2
  | .inr (.inl (.inl (.inl (rd, rs1, imm)))) => .addi rd rs1 imm
  | .inr (.inl (.inl (.inr (rd, rs1, imm)))) => .lw rd rs1 imm
  | .inr (.inl (.inr (.inl (rs1, rs2, imm)))) => .sw rs1 rs2 imm
  | .inr (.inl (.inr (.inr (rs1, rs2, off)))) => .beq rs1 rs2 (off ++ 0#1)
  | .inr (.inr (rd, imm20)) => .lui rd imm20

/-- The operands of an instruction; the sentinel has none. -/
def Instr.legalOperands : Instr → Option LegalOperands
  | .add rd rs1 rs2 => some (.inl (.inl (rd, rs1, rs2)))
  | .sub rd rs1 rs2 => some (.inl (.inr (rd, rs1, rs2)))
  | .addi rd rs1 imm => some (.inr (.inl (.inl (.inl (rd, rs1, imm)))))
  | .lw rd rs1 imm => some (.inr (.inl (.inl (.inr (rd, rs1, imm)))))
  | .sw rs1 rs2 imm => some (.inr (.inl (.inr (.inl (rs1, rs2, imm)))))
  | .lui rd imm20 => some (.inr (.inr (rd, imm20)))
  | .beq rs1 rs2 off => some (.inr (.inl (.inr (.inr (rs1, rs2, off.extractLsb' 1 12)))))
  | .halt _ => none

theorem extractLsb'_append_zero (x : BitVec 12) : (x ++ 0#1).extractLsb' 1 12 = x := by
  refine field_ext fun i hi => ?_
  simp only [BitVec.getLsbD_extractLsb', BitVec.getLsbD_append]
  grind

theorem extractLsb'_append_zero_of_even {off : BitVec 13} (h : off[0] = false) : off.extractLsb' 1 12 ++ 0#1 = off := by
  rw [← BitVec.getLsbD_eq_getElem] at h
  refine field_ext fun i hi => ?_
  simp only [BitVec.getLsbD_extractLsb', BitVec.getLsbD_append]
  grind

theorem LegalOperands.legalOperands_instr (o : LegalOperands) : o.instr.legalOperands = some o := by
  match o with
  | .inr (.inl (.inr (.inr (rs1, rs2, off)))) =>
    rw [LegalOperands.instr, Instr.legalOperands, extractLsb'_append_zero]
  | .inl (.inl _) | .inl (.inr _) | .inr (.inl (.inl (.inl _))) | .inr (.inl (.inl (.inr _)))
  | .inr (.inl (.inr (.inl _))) | .inr (.inr _) => rfl

theorem LegalOperands.instr_isSentinel (o : LegalOperands) : o.instr.isSentinel = false := by
  refine Bool.eq_false_iff.2 fun hs => ?_
  obtain ⟨ignored, hhalt⟩ := Instr.isSentinel_iff.1 hs
  cases hhalt ▸ o.legalOperands_instr

theorem LegalOperands.instr_wellFormed (o : LegalOperands) : o.instr.wellFormed = true := by
  match o with
  | .inr (.inl (.inr (.inr (rs1, rs2, off)))) =>
    have heven : (off ++ 0#1)[0] = false := by rw [← BitVec.getLsbD_eq_getElem, BitVec.getLsbD_append]; rfl
    rw [LegalOperands.instr, Instr.wellFormed, heven, Bool.not_false]
  | .inl (.inl _) | .inl (.inr _) | .inr (.inl (.inl (.inl _))) | .inr (.inl (.inl (.inr _)))
  | .inr (.inl (.inr (.inl _))) | .inr (.inr _) => rfl

/-- A well-formed instruction of the decoder has operands, from which it comes back. -/
theorem exists_legalOperands {i : Instr} (hwf : i.wellFormed = true) (hs : i.isSentinel = false) :
    ∃ o, i.legalOperands = some o ∧ o.instr = i := by
  cases i with
  | halt => cases hs
  | beq rs1 rs2 off =>
    have heven : off[0] = false := by simpa [Instr.wellFormed] using hwf
    exact ⟨_, rfl, congrArg (Instr.beq rs1 rs2) (extractLsb'_append_zero_of_even heven)⟩
  | _ => exact ⟨_, rfl, rfl⟩

theorem card_bitVec (n : Nat) : Nat.card (BitVec n) = 2 ^ n := by
  rw [Nat.card_congr BitVec.equivFin.toEquiv, Nat.card_fin]

theorem card_legalOperands : Nat.card LegalOperands = 50397184 := by
  simp only [Nat.card_sum, Nat.card_prod, card_bitVec]
  norm_num

/-- Encoding is a bijection from the operands of the seven rows to the legal words. -/
theorem card_legalWords {c : Config} (hc : c.valid) :
    Nat.card {w : Word // ∃ i, decode c.branchOpcode w = .ok i} = Nat.card LegalOperands := by
  have hdecode (o : LegalOperands) : decode c.branchOpcode (encode c.branchOpcode o.instr) = .ok o.instr :=
    decode_encode hc o.instr_wellFormed o.instr_isSentinel
  refine (Nat.card_eq_of_bijective (fun o => ⟨encode c.branchOpcode o.instr, o.instr, hdecode o⟩) ⟨?_, ?_⟩).symm
  · intro o p hword
    have hinstr : o.instr = p.instr := Except.ok.inj <|
      calc .ok o.instr = decode c.branchOpcode (encode c.branchOpcode o.instr) := (hdecode o).symm
        _ = decode c.branchOpcode (encode c.branchOpcode p.instr) := congrArg _ (Subtype.mk.inj hword)
        _ = .ok p.instr := hdecode p
    exact Option.some.inj <|
      calc some o = o.instr.legalOperands := o.legalOperands_instr.symm
        _ = p.instr.legalOperands := congrArg _ hinstr
        _ = some p := p.legalOperands_instr
  · rintro ⟨w, i, hok⟩
    obtain ⟨o, -, rfl⟩ := exists_legalOperands (wellFormed_of_decode_ok hok) (decode_not_sentinel hok)
    exact ⟨o, Subtype.ext (encode_of_decode_ok hok)⟩

end Sys2Proof
end

section
/-! The statement about the number of legal words (40_decoder.md R106, law (c)). -/

namespace Sys2Proof

/-- Settles O7: the legal words are the encodings of the rows' operands, of which there are 2 * 2^15 (ADD, SUB),
4 * 2^22 (ADDI, LW, SW, BEQ) and 2^25 (LUI). -/
theorem legalWordsNumberFiftyMillion : Obligations.LegalWordsNumberFiftyMillion :=
  fun _ hc => (card_legalWords hc).trans card_legalOperands

end Sys2Proof
end

section
/-! SUPPORT. Sign extension by the formula of 00_scope.md section 4, the addresses built on it (20_memory.md R56,
43_branch.md R130), and the constants that LUI and ADDI build (41_alu.md R115). -/

namespace Sys2Proof.Machine

/-- The machine's sign extension is the spec's formula: a value with the top bit set gains `2^32 - 2^n`. -/
theorem toNat_signExtend_eq_sextNat {n : Nat} (hn : n ≤ 32) (x : BitVec n) :
    (x.signExtend 32).toNat = sextNat n x.toNat := by
  have hpow : 2 ^ n ≤ 2 ^ 32 := Nat.pow_le_pow_right (by decide) hn
  have hx : x.toNat < 2 ^ n := x.isLt
  rw [BitVec.toNat_signExtend, BitVec.toNat_setWidth_of_le hn, BitVec.msb_eq_decide, sextNat]
  by_cases hmsb : 2 ^ (n - 1) ≤ x.toNat
  · rw [decide_eq_true hmsb, if_neg (Nat.not_lt.2 hmsb), if_pos rfl]
    omega
  · rw [decide_eq_false hmsb, if_pos (Nat.not_le.1 hmsb)]
    rfl

theorem toNat_immI (imm : BitVec 12) : (immI imm).toNat = sextNat 12 imm.toNat :=
  toNat_signExtend_eq_sextNat (by decide) imm

theorem toNat_immS (imm : BitVec 12) : (immS imm).toNat = sextNat 12 imm.toNat :=
  toNat_signExtend_eq_sextNat (by decide) imm

theorem toNat_immB (off : BitVec 13) : (immB off).toNat = sextNat 13 off.toNat :=
  toNat_signExtend_eq_sextNat (by decide) off

theorem toNat_loadAddress (s : State) (rs1 : RegIdx) (imm : BitVec 12) :
    (loadAddress s rs1 imm).toNat = ((s.readReg rs1).toNat + sextNat 12 imm.toNat) % 2 ^ 32 := by
  rw [loadAddress, BitVec.toNat_add, toNat_immI]

theorem toNat_storeAddress (s : State) (rs1 : RegIdx) (imm : BitVec 12) :
    (storeAddress s rs1 imm).toNat = ((s.readReg rs1).toNat + sextNat 12 imm.toNat) % 2 ^ 32 := by
  rw [storeAddress, BitVec.toNat_add, toNat_immS]

theorem toNat_branchTarget (s : State) (off : BitVec 13) :
    (branchTarget s off).toNat = (s.pc.toNat + sextNat 13 off.toNat) % 2 ^ 32 := by
  rw [branchTarget, BitVec.toNat_add, toNat_immB]

/-- A word is its upper 20 bits over its lower 12. -/
theorem immUField_append_low (w : Word) : immUField w ++ w.setWidth 12 = w := by
  refine field_ext fun i hi => ?_
  simp only [immUField, BitVec.getLsbD_append, BitVec.getLsbD_extractLsb', BitVec.getLsbD_setWidth]
  grind

theorem setWidth_immI (imm : BitVec 12) : (immI imm).setWidth 12 = imm := by
  refine field_ext fun i hi => ?_
  simp only [immI, BitVec.getLsbD_setWidth, BitVec.getLsbD_signExtend]
  grind

/-- Less the sign-extended lower 12 bits, a word has 12 zeros at the bottom: the upper immediate for LUI. -/
theorem setWidth_sub_immI (v : Word) : (v - immI (v.setWidth 12)).setWidth 12 = 0#12 := by
  rw [BitVec.sub_eq_add_neg, BitVec.setWidth_add _ _ (by decide), BitVec.setWidth_neg_of_le (by decide), setWidth_immI,
    ← BitVec.sub_eq_add_neg, BitVec.sub_self]

theorem immU_add_immI (v : Word) : immU (immUField (v - immI (v.setWidth 12))) + immI (v.setWidth 12) = v := by
  have hupper : immU (immUField (v - immI (v.setWidth 12))) = v - immI (v.setWidth 12) := by
    rw [immU, ← setWidth_sub_immI v, immUField_append_low]
  rw [hupper, BitVec.sub_add_cancel]

end Sys2Proof.Machine
end

section
/-! The statements about ADDI, the constants and the addresses (41_alu.md R113, R115; 20_memory.md R56; 43_branch.md
R130). -/

namespace Sys2Proof

open Sys2Proof.Machine

/-- Settles O14: ADDI commits the machine's sum with the extended immediate. -/
theorem addiAddsTheSignExtendedImmediate : Obligations.AddiAddsTheSignExtendedImmediate := by
  refine ⟨fun s rd rs1 imm => commitRegister_writes_ofNat s rd ?_, fun bop _ hrow => decode_of_addi_row bop hrow⟩
  rw [BitVec.toNat_add, toNat_immI]

/-- Settles O17: each address is the machine's sum, whose number is the sum modulo 2^32. -/
theorem addressesWrapModulo : Obligations.AddressesWrapModulo :=
  fun s rs1 imm off => ⟨toNat_loadAddress s rs1 imm, toNat_storeAddress s rs1 imm, toNat_branchTarget s off⟩

/-- Settles O16: ADDI's immediate is the constant's lower 12 bits, and LUI's is the upper 20 of the constant less their
extension. -/
theorem luiThenAddiBuildsEveryConstant : Obligations.LuiThenAddiBuildsEveryConstant := by
  refine fun v => ⟨immUField (v - immI (v.setWidth 12)), v.setWidth 12, fun s rd hrd => ⟨_, _, rfl, rfl, ?_⟩⟩
  rw [State.readReg_setPc, State.readReg_writeReg_self _ _ _ hrd, State.readReg_setPc,
    State.readReg_writeReg_self _ _ _ hrd, immU_add_immI]

end Sys2Proof
end

section
/-! SUPPORT. What stands in memory after a completed SW (42_load_store.md R121), and BEQ's two ways (43_branch.md
R130). -/

namespace Sys2Proof.Machine

/-- The word at the address of a completed SW can be accessed, and it is the stored one. -/
theorem exec_sw_readWord {s t : State} {rs1 rs2 : RegIdx} {imm : BitVec 12} (hm : Memory.wf s.mem)
    (h : exec (.sw rs1 rs2 imm) s = .next t) :
    wordAligned (storeAddress s rs1 imm) ∧ wordInBounds t.cfg (storeAddress s rs1 imm) ∧
      Memory.readWord t.mem (storeAddress s rs1 imm).toNat = s.readReg rs2 := by
  obtain ⟨haligned, hbounds, rfl⟩ := commitStore_next_iff.1 h
  exact ⟨haligned, hbounds, Memory.readWord_writeWord hm _ _⟩

theorem exec_beq_of_eq {s : State} {rs1 rs2 : RegIdx} {off : BitVec 13} (h : s.readReg rs1 = s.readReg rs2) :
    exec (.beq rs1 rs2 off) s = .next (s.setPc (branchTarget s off)) :=
  congrArg (commitPc s) (if_pos (beq_iff_eq.2 h))

theorem exec_beq_of_ne {s : State} {rs1 rs2 : RegIdx} {off : BitVec 13} (h : s.readReg rs1 ≠ s.readReg rs2) :
    exec (.beq rs1 rs2 off) s = .next (s.setPc s.pcNext) :=
  congrArg (commitPc s) (if_neg fun htaken => h (beq_iff_eq.1 htaken))

end Sys2Proof.Machine
end

section
/-! The statements about LW, SW and BEQ (42_load_store.md R120 to R122; 43_branch.md R130). -/

namespace Sys2Proof

open Sys2Proof.Machine

/-- Settles O18: past its two checks LW commits the word that memory holds at the address. -/
theorem lwLoadsTheLittleEndianWord : Obligations.LwLoadsTheLittleEndianWord := by
  refine ⟨fun s rd rs1 imm haligned hbounds => ?_, fun bop _ hrow => decode_of_lw_row bop hrow⟩
  obtain ⟨t, hcommit, hwrites⟩ := commitRegister_writes s rd (Memory.readWord s.mem (loadAddress s rs1 imm).toNat)
  exact ⟨t, execLw_next_iff.2 ⟨haligned, hbounds, (Host.Outcome.next.inj hcommit).symm⟩, hwrites⟩

/-- Settles O19: past its two checks SW commits the word store, whose bytes are those of the word. -/
theorem swStoresTheLittleEndianWord : Obligations.SwStoresTheLittleEndianWord := by
  refine ⟨fun s rs1 rs2 imm hm haligned hbounds => ?_, fun bop _ hrow => decode_of_sw_row bop hrow⟩
  exact ⟨_, commitStore_next_iff.2 ⟨haligned, hbounds, rfl⟩, fun i hi => Memory.readByte_writeWord hm _ _ hi,
    fun x hx => Memory.readByte_writeWord_outside hm hx, fun _ => rfl, rfl, rfl⟩

/-- Settles O20: both stop by the checks of their address, alignment before bounds. -/
theorem lwAndSwStopExactlyOnABadAddress : Obligations.LwAndSwStopExactlyOnABadAddress := by
  intro s e
  simp only [← Nat.not_le]
  exact ⟨fun _ _ _ => execLw_fault_iff, fun _ _ _ => commitStore_fault_iff⟩

/-- Settles O21: the load's checks are those the store passed, and memory holds the stored word. -/
theorem loadAfterStoreYieldsTheStoredWord : Obligations.LoadAfterStoreYieldsTheStoredWord := by
  intro s t rs1 rs2 rd rs1' imm imm' hm hrd hstore haddress
  obtain ⟨haligned, hbounds, hword⟩ := exec_sw_readWord hm hstore
  rw [← haddress] at haligned hbounds hword
  refine ⟨_, execLw_next_iff.2 ⟨haligned, hbounds, rfl⟩, ?_⟩
  rw [State.readReg_setPc, State.readReg_writeReg_self _ _ _ hrd, hword]

/-- Settles O22: BEQ commits a pc and nothing else. -/
theorem beqRedirectsThePcOnEquality : Obligations.BeqRedirectsThePcOnEquality := by
  refine ⟨fun s rs1 rs2 off => ?_, fun c _ hc hrow => decode_of_beq_row hc hrow⟩
  by_cases heq : s.readReg rs1 = s.readReg rs2
  · refine ⟨_, exec_beq_of_eq heq, fun _ => ?_, fun hne => absurd heq hne, fun _ => rfl, fun _ => rfl, rfl⟩
    rw [← toNat_branchTarget, BitVec.ofNat_toNat, BitVec.setWidth_eq, State.setPc_pc]
  · exact ⟨_, exec_beq_of_ne heq, fun heq' => absurd heq' heq, fun _ => rfl, fun _ => rfl, fun _ => rfl, rfl⟩

end Sys2Proof
end

section
/-! SUPPORT. Two states that differ in registers only, and outcomes that agree but for registers (10_state.md R16). -/

namespace Sys2Proof.Machine

theorem forall_mem_dedup_pair {P : RegIdx → Prop} {a b : RegIdx} : (∀ r ∈ [a, b].dedup, P r) ↔ P a ∧ P b := by
  simp

/-- The two states agree on everything but the registers. -/
structure AgreeButRegs (s s' : State) : Prop where
  pc : s.pc = s'.pc
  mem : s.mem = s'.mem
  cfg : s.cfg = s'.cfg

/-- Where the first state completes the second does, and the next states agree on everything but the registers, of which
they agree on `dest`; both raise the same errors. -/
def OutcomesAgree (dest : Option RegIdx) (o o' : Host.Outcome State Fault Refusal) : Prop :=
  (∀ e, o = .fault e ↔ o' = .fault e) ∧
  (∀ t, o = .next t → ∃ t', o' = .next t' ∧ t.pc = t'.pc ∧ t.mem = t'.mem ∧ t.cfg = t'.cfg ∧
    ∀ r, dest = some r → t.readReg r = t'.readReg r)

theorem OutcomesAgree.fault (dest : Option RegIdx) (e : Fault) : OutcomesAgree dest (.fault e) (.fault e) :=
  ⟨fun _ => .rfl, nofun⟩

theorem OutcomesAgree.next {dest : Option RegIdx} {t t' : State} (h : AgreeButRegs t t')
    (hdest : ∀ r, dest = some r → t.readReg r = t'.readReg r) : OutcomesAgree dest (.next t) (.next t') :=
  ⟨fun _ => ⟨nofun, nofun⟩, fun _ ht => ⟨t', rfl, Host.Outcome.next.inj ht ▸ ⟨h.pc, h.mem, h.cfg, hdest⟩⟩⟩

namespace AgreeButRegs

variable {s s' : State} (h : AgreeButRegs s s')
include h

theorem pcNext : s.pcNext = s'.pcNext := by rw [State.pcNext, State.pcNext, h.pc]

theorem commitRegister (rd : RegIdx) {v v' : Word} (hv : v = v') :
    OutcomesAgree (some rd) (commitRegister s rd v) (commitRegister s' rd v') := by
  subst hv
  refine .next ⟨h.pcNext, by simp [h.mem], by simp [h.cfg]⟩ ?_
  rintro r ⟨rfl⟩
  by_cases hr : rd = 0#5 <;> simp [State.readReg_writeReg, hr]

theorem commitPc {p p' : Word} (hp : p = p') : OutcomesAgree none (commitPc s p) (commitPc s' p') :=
  .next ⟨hp, h.mem, h.cfg⟩ nofun

theorem memRead (a : Word) : s.memRead a = s'.memRead a := by
  rw [State.memRead, State.memRead, h.mem, h.cfg]

theorem commitStore {a a' v v' : Word} (ha : a = a') (hv : v = v') :
    OutcomesAgree none (commitStore s a v) (commitStore s' a' v') := by
  subst ha hv
  cases hcheck : checkAccess s.cfg a with
  | ok =>
    simp only [Machine.commitStore, State.memWrite, ← h.cfg, ← h.mem, hcheck]
    exact .next ⟨h.pcNext, rfl, h.cfg⟩ nofun
  | error e =>
    simp only [Machine.commitStore, State.memWrite, ← h.cfg, hcheck]
    exact .fault none e

/-- The outcome is made of the pc, memory, the parameters and the source registers. -/
theorem exec {i : Instr} (hregs : ∀ r ∈ regsRead i, s.readReg r = s'.readReg r) :
    OutcomesAgree (regDest i) (exec i s) (exec i s') := by
  cases i with
  | add rd rs1 rs2 =>
    obtain ⟨h1, h2⟩ := forall_mem_dedup_pair.1 hregs
    exact h.commitRegister rd (congrArg₂ _ h1 h2)
  | sub rd rs1 rs2 =>
    obtain ⟨h1, h2⟩ := forall_mem_dedup_pair.1 hregs
    exact h.commitRegister rd (congrArg₂ _ h1 h2)
  | addi rd rs1 imm =>
    exact h.commitRegister rd (congrArg (· + immI imm) (hregs rs1 (List.mem_singleton_self rs1)))
  | lui rd imm20 => exact h.commitRegister rd rfl
  | lw rd rs1 imm =>
    have haddress : loadAddress s rs1 imm = loadAddress s' rs1 imm :=
      congrArg (· + immI imm) (hregs rs1 (List.mem_singleton_self rs1))
    simp only [Machine.exec, execLw, haddress, h.memRead]
    split
    · exact h.commitRegister rd rfl
    · exact .fault _ _
  | sw rs1 rs2 imm =>
    obtain ⟨h1, h2⟩ := forall_mem_dedup_pair.1 hregs
    exact h.commitStore (congrArg (· + immS imm) h1) h2
  | beq rs1 rs2 off =>
    obtain ⟨h1, h2⟩ := forall_mem_dedup_pair.1 hregs
    refine h.commitPc ?_
    rw [h1, h2, branchTarget, branchTarget, h.pc, h.pcNext]
  | halt ignored => exact .next h nofun

end AgreeButRegs

end Sys2Proof.Machine
end

section
/-! SUPPORT. The offset of a decoded BEQ, and the alignment of the pc after it (10_state.md R17, 30_encoding.md R85). -/

namespace Sys2Proof.Machine

/-- A decoded BEQ's offset is even. -/
theorem even_of_decode_beq {bop : BitVec 7} {w : Word} {rs1 rs2 : RegIdx} {off : BitVec 13}
    (h : decode bop w = .ok (.beq rs1 rs2 off)) : off.toNat % 2 = 0 := by
  have hlow : off[0] = false := by simpa [Instr.wellFormed] using wellFormed_of_decode_ok h
  rw [← BitVec.getLsbD_eq_getElem, BitVec.getLsbD, Nat.testBit_zero] at hlow
  simpa using hlow

/-- Sign extension and the wrap of the sum add multiples of 4. -/
theorem branchTarget_mod_four {s : State} (h : s.pc.toNat % 4 = 0) (off : BitVec 13) :
    (branchTarget s off).toNat % 4 = off.toNat % 4 := by
  rw [toNat_branchTarget, sextNat]
  split <;> omega

theorem pcNext_mod_four {s : State} (h : s.pc.toNat % 4 = 0) : s.pcNext.toNat % 4 = 0 := by
  rw [State.pcNext, BitVec.toNat_add, BitVec.toNat_ofNat]
  omega

theorem exec_next_pc {i : Instr} {s t : State} (h : exec i s = .next t) (hi : i.isSentinel = false) :
    t.pc = s.pcNext ∨
      ∃ rs1 rs2 off, i = .beq rs1 rs2 off ∧ s.readReg rs1 = s.readReg rs2 ∧ t.pc = branchTarget s off := by
  obtain ⟨rd, v, -, rfl⟩ | ⟨rs1, rs2, imm, -, -, -, rfl⟩ | ⟨rs1, rs2, off, rfl, rfl⟩ | ⟨ignored, rfl, -⟩ :=
    exec_next_cases h
  · exact .inl rfl
  · exact .inl rfl
  · by_cases htaken : s.readReg rs1 = s.readReg rs2
    · exact .inr ⟨rs1, rs2, off, rfl, htaken, if_pos htaken⟩
    · exact .inl (if_neg htaken)
  · cases hi

end Sys2Proof.Machine
end

section
/-! The statements about every instruction's frame and sources, and about the pc's alignment (10_state.md R16, R17,
R19). -/

namespace Sys2Proof

open Sys2Proof.Machine

/-- Settles O25: by what a completed instruction can have done. -/
theorem instructionsChangeOnlyTheirDestination : Obligations.InstructionsChangeOnlyTheirDestination := by
  intro s t i hexec
  refine ⟨fun r hr => ?_, fun hsw a => ?_, ?_, exec_next_cfg hexec⟩
  · obtain ⟨rd, v, hrd, rfl⟩ | ⟨_, _, _, -, -, -, rfl⟩ | ⟨_, _, _, -, rfl⟩ | ⟨_, -, rfl⟩ := exec_next_cases hexec
    · exact State.readReg_writeReg_ne s rd r v fun heq => hr (heq ▸ hrd)
    all_goals rfl
  · obtain ⟨rd, v, -, rfl⟩ | ⟨rs1, rs2, imm, hi, -⟩ | ⟨_, _, _, -, rfl⟩ | ⟨_, -, rfl⟩ := exec_next_cases hexec
    · rw [State.setPc_mem, State.writeReg_mem]
    · exact absurd hi (hsw rs1 rs2 imm)
    all_goals rfl
  · rintro rs1 rs2 imm rfl hm x hx
    obtain ⟨-, -, rfl⟩ := commitStore_next_iff.1 hexec
    exact Memory.readByte_writeWord_outside hm hx

/-- Settles O26: each commit makes of equal operands outcomes that agree. -/
theorem instructionsDependOnlyOnTheirSources : Obligations.InstructionsDependOnlyOnTheirSources :=
  fun _ _ _ hpc hmem hcfg hregs => AgreeButRegs.exec ⟨hpc, hmem, hcfg⟩ hregs

/-- Settles O27: `pc + 4` keeps the alignment and a taken BEQ's target has its offset's remainder, which is 0 or 2. -/
theorem onlyATakenBranchLeavesAlignment : Obligations.OnlyATakenBranchLeavesAlignment := by
  intro s t hstep haligned
  obtain ⟨w, i, hfetch, hdecode, hexec⟩ := step_next_iff.1 hstep
  obtain hseq | ⟨rs1, rs2, off, rfl, htaken, htarget⟩ := exec_next_pc hexec (decode_not_sentinel hdecode)
  · have hpc : t.pc.toNat % 4 = 0 := hseq ▸ pcNext_mod_four haligned
    exact ⟨by omega, fun hne => absurd hpc hne⟩
  · have hpc : t.pc.toNat % 4 = off.toNat % 4 := htarget ▸ branchTarget_mod_four haligned off
    have heven : off.toNat % 2 = 0 := even_of_decode_beq hdecode
    exact ⟨by omega, fun _ => ⟨rs1, rs2, off, State.fetchDecode_ok_iff.2 ⟨w, hfetch, hdecode⟩, htaken, by omega⟩⟩

end Sys2Proof
end

section
/-! SUPPORT. What stands in memory after a run of bytes is written, and the fetch of a known word (20_memory.md R49,
R50). -/

namespace Sys2Proof.Machine

theorem Memory.readByte_writeBytes_at {m : Memory} (hm : Memory.wf m) (a : Nat) (bs : List Byte) {i : Nat}
    (h : i < bs.length) : Memory.readByte (Memory.writeBytes m a bs) (a + i) = bs[i] := by
  simp [Memory.readByte_writeBytes hm, h]

theorem Memory.readByte_writeBytes_outside {m : Memory} (hm : Memory.wf m) {a x : Nat} {bs : List Byte}
    (h : x < a ∨ a + bs.length ≤ x) : Memory.readByte (Memory.writeBytes m a bs) x = Memory.readByte m x := by
  rw [Memory.readByte_writeBytes hm, dif_neg (by omega)]

/-- A fetch at an address that can be accessed answers the word there. -/
theorem State.fetch_of_pc {s : State} {a w : Word} (hpc : s.pc = a) (haligned : wordAligned a)
    (hbounds : wordInBounds s.cfg a) (hword : Memory.readWord s.mem a.toNat = w) : s.fetch = .ok w := by
  subst hpc
  exact State.fetch_ok_iff.2 ⟨hbounds, haligned, hword.symm⟩

end Sys2Proof.Machine
end

section
/-! The statements about memory accesses and the image (20_memory.md R46, R47, R50, R60). -/

namespace Sys2Proof

open Sys2Proof.Machine

/-- Settles O30: by the two checks of the access, and by what a written word leaves in memory. -/
theorem wordWriteStoresOrChangesNothing : Obligations.WordWriteStoresOrChangesNothing := by
  refine fun s a v hm => ⟨fun hmisaligned => ?_, fun haligned houtside => ?_, fun haligned hbounds => ?_⟩
  · exact State.memWrite_error_iff.2 (.inl ⟨hmisaligned, rfl⟩)
  · exact ⟨State.memWrite_error_iff.2 (.inr ⟨haligned, Nat.not_le.2 houtside, rfl⟩),
      State.memRead_error_iff.2 (.inr ⟨haligned, Nat.not_le.2 houtside, rfl⟩)⟩
  · exact ⟨_, State.memWrite_ok_iff.2 ⟨haligned, hbounds, rfl⟩,
      State.memRead_ok_iff.2 ⟨haligned, hbounds, (Memory.readWord_writeWord hm a.toNat v).symm⟩,
      fun x hx => Memory.readByte_writeWord_outside hm hx, fun _ => rfl, rfl, rfl, Memory.wf_writeWord hm a.toNat v⟩

/-- Settles O31: the checks a store passes are those of a fetch at its address, where memory holds the stored word. -/
theorem aStoredWordIsSeenByTheNextFetch : Obligations.AStoredWordIsSeenByTheNextFetch := by
  refine ⟨fun s t rs1 rs2 imm hm hstore => ?_, fun s t v hm hwrite => ?_⟩
  · obtain ⟨haligned, hbounds, hword⟩ := exec_sw_readWord hm hstore
    refine ⟨State.fetch_of_pc rfl haligned hbounds hword, fun hnext => State.fetch_of_pc ?_ haligned hbounds hword⟩
    obtain ⟨-, -, rfl⟩ := commitStore_next_iff.1 hstore
    exact hnext.symm
  · obtain ⟨haligned, hbounds, rfl⟩ := State.memWrite_ok_iff.1 hwrite
    exact State.fetch_of_pc rfl haligned hbounds (Memory.readWord_writeWord hm s.pc.toNat v)

/-- Settles O32: one comparison decides, and the copy is a run of bytes. -/
theorem loadImageCopiesAllOrNothing : Obligations.LoadImageCopiesAllOrNothing := by
  intro s bytes off hm
  refine ⟨fun hoverrun => if_neg (Nat.not_le.2 hoverrun),
    fun hfits => ⟨_, if_pos hfits, ?_, ?_, fun _ => rfl, rfl, rfl⟩⟩
  · exact fun i hi => Memory.readByte_writeBytes_at hm off.toNat bytes hi
  · exact fun x hx => Memory.readByte_writeBytes_outside hm hx

end Sys2Proof
end

section
/-! SUPPORT. The errors of an instruction as those of its data access (60_exceptions.md R170). -/

namespace Sys2Proof.Machine

/-- An instruction fails exactly when its data access does, misaligned or outside memory. -/
theorem exec_fault_iff {i : Instr} {s : State} {e : Fault} :
    exec i s = .fault e ↔ ∃ a, dataAddress s i = some a ∧
      ((¬wordAligned a ∧ e = .misalignedAccess a) ∨ (wordAligned a ∧ ¬wordInBounds s.cfg a ∧ e = .outOfBounds a)) := by
  constructor
  · intro h
    obtain ⟨a, ⟨rd, rs1, imm, rfl, rfl⟩ | ⟨rs1, rs2, imm, rfl, rfl⟩, herror⟩ := exec_fault_cases h
    · exact ⟨_, rfl, herror⟩
    · exact ⟨_, rfl, herror⟩
  · rintro ⟨a, haddress, herror⟩
    cases i with
    | lw rd rs1 imm =>
      cases haddress
      exact execLw_fault_iff.2 herror
    | sw rs1 rs2 imm =>
      cases haddress
      exact commitStore_fault_iff.2 herror
    | _ => cases haddress

theorem exec_completes_of_dataAddress_none {i : Instr} {s : State} (h : dataAddress s i = none) :
    ∃ t, exec i s = .next t := by
  refine (exec_next_or_fault i s).resolve_right fun ⟨e, hfault⟩ => ?_
  obtain ⟨a, haddress, -⟩ := exec_fault_iff.1 hfault
  cases h.symm.trans haddress

theorem exec_completes_of_dataAddress_some {i : Instr} {s : State} {a : Word} (h : dataAddress s i = some a)
    (haligned : wordAligned a) (hbounds : wordInBounds s.cfg a) : ∃ t, exec i s = .next t := by
  refine (exec_next_or_fault i s).resolve_right fun ⟨e, hfault⟩ => ?_
  obtain ⟨b, haddress, hbad⟩ := exec_fault_iff.1 hfault
  obtain rfl : a = b := Option.some.inj (h.symm.trans haddress)
  obtain ⟨hmisaligned, -⟩ | ⟨-, houtside, -⟩ := hbad
  · exact hmisaligned haligned
  · exact houtside hbounds

end Sys2Proof.Machine
end

section
/-! The statements about the step (44_sequencer.md R140, 60_exceptions.md R170, 40_decoder.md R104). -/

namespace Sys2Proof

open Sys2Proof.Machine

/-- Settles O33: the four bytes at the pc are the word that the step fetches and decodes. -/
theorem stepRunsTheDecodedInstruction : Obligations.StepRunsTheDecodedInstruction :=
  fun _ _ hbounds haligned hdecode => step_of_decode_ok (State.fetch_ok_iff.2 ⟨hbounds, haligned, rfl⟩) hdecode

/-- Settles O36: the checks one after the other, each under those before it. -/
theorem stepReportsTheFirstFailingCheck : Obligations.StepReportsTheFirstFailingCheck := by
  intro s
  split
  case isTrue houtside =>
    exact step_fault_iff.2 (.inl (State.fetch_error_iff.2 (.inl ⟨Nat.not_le.2 houtside, rfl⟩)))
  case isFalse hbounds =>
    rw [Nat.not_lt] at hbounds
    split
    case isTrue hmisaligned =>
      exact step_fault_iff.2 (.inl (State.fetch_error_iff.2 (.inr ⟨hbounds, hmisaligned, rfl⟩)))
    case isFalse haligned =>
      have hfetch := State.fetch_ok_iff.2 ⟨hbounds, not_not.1 haligned, rfl⟩
      split
      case h_1 d hdecode =>
        exact step_fault_iff.2 (.inr (.inl ⟨_, d, hfetch, hdecode, (faultOfDecodeError_of_decode_error hdecode).symm⟩))
      case h_2 i hdecode =>
        rw [step_of_decode_ok hfetch hdecode]
        split
        case h_1 hnone => exact exec_completes_of_dataAddress_none hnone
        case h_2 a hsome =>
          split
          case isTrue hmisaligned => exact exec_fault_iff.2 ⟨a, hsome, .inl ⟨hmisaligned, rfl⟩⟩
          case isFalse haligned =>
            rw [not_not] at haligned
            split
            case isTrue houtside => exact exec_fault_iff.2 ⟨a, hsome, .inr ⟨haligned, Nat.not_le.2 houtside, rfl⟩⟩
            case isFalse hbounds =>
              exact exec_completes_of_dataAddress_some hsome haligned (Nat.not_lt.1 hbounds)

/-- Settles O37: every arm of `exec` commits or raises. -/
theorem nothingIsEverRefused : Obligations.NothingIsEverRefused := ⟨exec_next_or_fault, step_next_or_fault⟩

end Sys2Proof
end

section
/-! The statements about reset and a placed word (70_reset_and_hazards.md R191, R192). -/

namespace Sys2Proof

open Sys2Proof.Machine

/-- Settles O39: every slot of the reset register file is 0 and reset memory lists nothing. -/
theorem resetLeavesZeros : Obligations.ResetLeavesZeros := by
  refine ⟨rfl, fun c => ⟨rfl, fun r => ?_, fun _ => rfl, rfl⟩⟩
  simp [State.readReg]

/-- Settles O34: the word is stored at an address that can be fetched from, which is the pc where the pc can. -/
theorem aPlacedWordIsFetchedNext : Obligations.APlacedWordIsFetchedNext := by
  intro s w hinv hw
  have hword : s.withFetchWord 32 w = s.placeWord (BitVec.ofNat 32 w) := by
    rw [State.withFetchWord, Nat.mod_eq_of_lt hw]
  rw [hword]
  exact ⟨State.fetch_placeWord hinv.cfg_valid hinv.mem_wf _, hinv.placeWord _, fun _ => rfl,
    fun x hx => Memory.readByte_writeWord_outside hinv.mem_wf hx, fun hbounds haligned => if_pos ⟨hbounds, haligned⟩⟩

end Sys2Proof
end

section
/-! SUPPORT. The registers that a decoded word names and its extended immediates (40_decoder.md R101). -/

namespace Sys2Proof.Machine

theorem immI_eq_sextNat (imm : BitVec 12) : immI imm = BitVec.ofNat 32 (sextNat 12 imm.toNat) := by
  rw [← toNat_immI, BitVec.ofNat_toNat, BitVec.setWidth_eq]

theorem immS_eq_sextNat (imm : BitVec 12) : immS imm = BitVec.ofNat 32 (sextNat 12 imm.toNat) := immI_eq_sextNat imm

theorem immB_eq_sextNat (off : BitVec 13) : immB off = BitVec.ofNat 32 (sextNat 13 off.toNat) := by
  rw [← toNat_immB, BitVec.ofNat_toNat, BitVec.setWidth_eq]

end Sys2Proof.Machine
end

section
/-! The statement about the decoded record (40_decoder.md R101). -/

namespace Sys2Proof

open Sys2Proof.Machine

/-- Settles O52: the row of the word gives the instruction, whose record and registers are read off; the immediates by
the formula of sign extension and by LUI's mask. -/
theorem decodedRecordFollowsTheTable : Obligations.DecodedRecordFollowsTheTable := by
  intro c w hc rd rs1 rs2 extI extS extB
  have hI : immI (immIField w) = extI := immI_eq_sextNat (immIField w)
  have hS : immS (immSField w) = extS := immS_eq_sextNat (immSField w)
  have hB : immB (immBField w) = extB := immB_eq_sextNat (immBField w)
  rw [← hI, ← hS, ← hB, ← immU_immUField]
  exact ⟨fun h => ⟨_, decode_of_add_row _ h, rfl, fun _ => List.mem_dedup, rfl⟩,
    fun h => ⟨_, decode_of_sub_row _ h, rfl, fun _ => List.mem_dedup, rfl⟩,
    fun h => ⟨_, decode_of_addi_row _ h, rfl, fun _ => .rfl, rfl⟩,
    fun h => ⟨_, decode_of_lw_row _ h, rfl, fun _ => .rfl, rfl⟩,
    fun h => ⟨_, decode_of_sw_row _ h, rfl, fun _ => List.mem_dedup, rfl⟩,
    fun h => ⟨_, decode_of_lui_row _ h, rfl, fun _ => .rfl, rfl⟩,
    fun h => ⟨_, decode_of_beq_row hc h, rfl, fun _ => List.mem_dedup, rfl⟩⟩

end Sys2Proof
end

section
/-! SUPPORT. The trace record in each of the four ways a step can go (10_state.md R33, 44_sequencer.md R144). -/

namespace Sys2Proof.Machine

theorem regWritten_eq_some_iff {i : Instr} {r : RegIdx} : regWritten i = some r ↔ regDest i = some r ∧ r ≠ 0#5 := by
  unfold regWritten
  split
  case h_1 rd hrd =>
    rw [hrd, Option.some.injEq]
    split
    case isTrue hzero => exact ⟨nofun, fun ⟨heq, hne⟩ => absurd (heq.symm.trans hzero) hne⟩
    case isFalse hne =>
      rw [Option.some.injEq]
      exact ⟨fun heq => ⟨heq, heq ▸ hne⟩, And.left⟩
  case h_2 hnone => simp [hnone]

theorem readReg_of_not_regWritten {i : Instr} {s t : State} {r : RegIdx} (h : exec i s = .next t)
    (hr : regWritten i ≠ some r) : t.readReg r = s.readReg r := by
  by_cases hzero : r = 0#5
  · rw [hzero, State.readReg_zero, State.readReg_zero]
  · obtain ⟨hregs, -⟩ := instructionsChangeOnlyTheirDestination s t i h
    exact hregs r fun hdest => hr (regWritten_eq_some_iff.2 ⟨hdest, hzero⟩)

theorem traceStep_of_fetch_error {s : State} {e : Fault} (h : s.fetch = .error e) :
    traceStep s = .failed none none s.pc [] (some e) := by
  rw [traceStep, h]

theorem traceStep_of_decode_error {s : State} {w : Word} {d : DecodeError} (hfetch : s.fetch = .ok w)
    (hdecode : decode s.cfg.branchOpcode w = .error d) :
    traceStep s = .failed (some w) none s.pc [] (some (faultOfDecodeError d)) := by
  simp only [traceStep, hfetch, hdecode]

theorem traceStep_of_exec_fault {s : State} {w : Word} {i : Instr} {e : Fault} (hfetch : s.fetch = .ok w)
    (hdecode : decode s.cfg.branchOpcode w = .ok i) (hexec : exec i s = .fault e) :
    traceStep s = .failed (some w) (decodedRecord i) s.pc (regsRead i) (some e) := by
  simp only [traceStep, hfetch, hdecode, hexec]

theorem traceStep_of_exec_next {s t : State} {w : Word} {i : Instr} (hfetch : s.fetch = .ok w)
    (hdecode : decode s.cfg.branchOpcode w = .ok i) (hexec : exec i s = .next t) :
    traceStep s =
      { word := some w, decoded := decodedRecord i, pcBefore := s.pc, pcAfter := t.pc, regsRead := regsRead i,
        regWritten := regWritten i, error := none } := by
  simp only [traceStep, hfetch, hdecode, hexec]

/-- The four ways a step can go, with the outcome of each. -/
theorem step_cases (s : State) :
    (∃ e, s.fetch = .error e ∧ s.fetchDecode = .error e ∧ step s = .fault e) ∨
    (∃ w d, s.fetch = .ok w ∧ decode s.cfg.branchOpcode w = .error d ∧ s.fetchDecode = .error (faultOfDecodeError d) ∧
      step s = .fault (faultOfDecodeError d)) ∨
    (∃ w i, s.fetch = .ok w ∧ decode s.cfg.branchOpcode w = .ok i ∧ s.fetchDecode = .ok i ∧
      ((∃ e, exec i s = .fault e ∧ step s = .fault e) ∨ ∃ t, exec i s = .next t ∧ step s = .next t)) := by
  cases hfetch : s.fetch with
  | error e => exact .inl ⟨e, rfl, State.fetchDecode_error_iff.2 (.inl hfetch), step_fault_iff.2 (.inl hfetch)⟩
  | ok w =>
    cases hdecode : decode s.cfg.branchOpcode w with
    | error d =>
      exact .inr (.inl ⟨w, d, rfl, hdecode, State.fetchDecode_error_iff.2 (.inr ⟨w, d, hfetch, hdecode, rfl⟩),
        step_fault_iff.2 (.inr (.inl ⟨w, d, hfetch, hdecode, rfl⟩))⟩)
    | ok i =>
      refine .inr (.inr ⟨w, i, rfl, hdecode, State.fetchDecode_ok_iff.2 ⟨w, hfetch, hdecode⟩, ?_⟩)
      rw [step_of_decode_ok hfetch hdecode]
      exact (exec_next_or_fault i s).symm.imp (fun ⟨e, he⟩ => ⟨e, he, he⟩) (fun ⟨t, ht⟩ => ⟨t, ht, ht⟩)

end Sys2Proof.Machine
end

section
/-! The statement about the trace record (10_state.md R33). -/

namespace Sys2Proof

open Sys2Proof.Machine

/-- Settles O38: a record for each way the step can go; of a completed step the destination is the register written. -/
theorem traceRecordTellsTheStep : Obligations.TraceRecordTellsTheStep := by
  intro s
  obtain ⟨e, hfetch, hphases, hstep⟩ | ⟨w, d, hfetch, hdecode, hphases, hstep⟩ |
    ⟨w, i, hfetch, hdecode, hphases, ⟨e, hexec, hstep⟩ | ⟨t, hexec, hstep⟩⟩ := step_cases s
  · simp [traceStep_of_fetch_error hfetch, TraceRecord.failed, hfetch, hphases, hstep]
  · simp [traceStep_of_decode_error hfetch hdecode, TraceRecord.failed, hfetch, hphases, hstep]
  · simp [traceStep_of_exec_fault hfetch hdecode hexec, TraceRecord.failed, hfetch, hphases, hstep]
  · have hregs : ∀ r, regWritten i ≠ some r → t.readReg r = s.readReg r := fun r => readReg_of_not_regWritten hexec
    simpa [traceStep_of_exec_next hfetch hdecode hexec, hfetch, hphases, hstep, regWritten_eq_some_iff] using hregs

end Sys2Proof
end

section
/-! SUPPORT. An ended run's result is that of a run from its final state, and of every longer run (44_sequencer.md R145,
R149). -/

namespace Sys2Proof.Machine

/-- A run that has ended, that is, whose fuel was enough. -/
def RunResult.Ended (r : RunResult) : Prop := ∀ t, r ≠ .noResult t

/-- By induction on the fuel: the round that ends a run would end it at once, had it begun there. -/
theorem runFor_final_of_ended {n : Nat} {s : State} (h : (runFor n s).Ended) (m : Nat) :
    runFor (m + 1) (runFor n s).final = runFor n s := by
  induction n generalizing s with
  | zero => exact absurd rfl (h s)
  | succ n ih =>
    obtain hs | ⟨hs, ⟨t, hnext⟩ | ⟨e, hfault⟩⟩ := round_cases s
    · rw [runFor_succ_of_atSentinel hs]; exact runFor_succ_of_atSentinel hs m
    · rw [runFor_succ_of_step_next hs hnext] at h ⊢; exact ih h
    · rw [runFor_succ_of_step_fault hs hfault]; exact runFor_succ_of_step_fault hs hfault m

/-- More fuel does not change the result of an ended run. -/
theorem runFor_add_of_ended {n : Nat} {s : State} (h : (runFor n s).Ended) (k : Nat) :
    runFor (n + k) s = runFor n s := by
  induction n generalizing s with
  | zero => exact absurd rfl (h s)
  | succ n ih =>
    rw [Nat.add_right_comm]
    obtain hs | ⟨hs, ⟨t, hnext⟩ | ⟨e, hfault⟩⟩ := round_cases s
    · rw [runFor_succ_of_atSentinel hs, runFor_succ_of_atSentinel hs]
    · rw [runFor_succ_of_step_next hs hnext] at h ⊢
      rw [runFor_succ_of_step_next hs hnext, ih h]
    · rw [runFor_succ_of_step_fault hs hfault, runFor_succ_of_step_fault hs hfault]

/-- So two runs from one state that have ended have ended in the same way. -/
theorem runFor_unique {n m : Nat} {s : State} {r q : RunResult} (hn : runFor n s = r) (hm : runFor m s = q)
    (hr : r.Ended) (hq : q.Ended) : r = q := by
  subst hn hm
  rw [← runFor_add_of_ended hr m, Nat.add_comm, runFor_add_of_ended hq n]

theorem runFor_ne_refused (n : Nat) (s : State) (r : Refusal) (t : State) : runFor n s ≠ .refused r t := by
  induction n generalizing s with
  | zero => exact nofun
  | succ n ih =>
    obtain hs | ⟨hs, ⟨u, hnext⟩ | ⟨e, hfault⟩⟩ := round_cases s
    · rw [runFor_succ_of_atSentinel hs]; exact nofun
    · rw [runFor_succ_of_step_next hs hnext]; exact ih u
    · rw [runFor_succ_of_step_fault hs hfault]; exact nofun

/-- Only the sentinel makes a round answer HALTED. -/
theorem atSentinel_of_runFor_one_halted {s t : State} (h : runFor 1 s = .halted t) : s.AtSentinel := by
  obtain hs | ⟨hs, ⟨u, hnext⟩ | ⟨e, hfault⟩⟩ := round_cases s
  · exact hs
  · cases (runFor_succ_of_step_next hs hnext 0).symm.trans h
  · cases (runFor_succ_of_step_fault hs hfault 0).symm.trans h

/-- A run follows completed steps, as long as none starts at the sentinel. -/
theorem failsIn_of_steps {s t : State} {e : Fault} (hc : s.cfg.valid) (h : Steps s t) (ht : ¬t.AtSentinel)
    (hfault : step t = .fault e) : FailsIn s e t := by
  induction h with
  | refl s => exact ⟨1, runFor_succ_of_step_fault ht hfault 0⟩
  | step hnext _ ih =>
    obtain ⟨n, hrun⟩ := ih (step_next_cfg hnext ▸ hc) ht hfault
    exact ⟨n + 1, (runFor_succ_of_step_next (State.not_atSentinel_of_step_next hc hnext) hnext n).trans hrun⟩

end Sys2Proof.Machine

namespace Sys2Proof

open Sys2Proof.Machine

theorem RunsForever.not_ended {s : State} {n : Nat} {r : RunResult} (h : RunsForever s) (hrun : runFor n s = r) :
    ¬r.Ended := by
  obtain ⟨t, ht⟩ := h n
  exact fun hended => hended t (hrun.symm.trans ht)

theorem HaltsIn.steps_atSentinel {s t : State} (h : HaltsIn s t) : Steps s t ∧ t.AtSentinel := by
  obtain ⟨n, hrun⟩ := h
  have hended : (runFor n s).Ended := by rw [hrun]; exact nofun
  have hsteps := steps_runFor_final n s
  have hrepeat := runFor_final_of_ended hended 0
  rw [hrun] at hsteps hrepeat
  exact ⟨hsteps, atSentinel_of_runFor_one_halted hrepeat⟩

end Sys2Proof
end

section
/-! SUPPORT. The formulation of run that steps first (44_sequencer.md R145). -/

namespace Sys2Proof.Machine

/-- Only the decoder reports a word as unknown, and it reports the fetched one. -/
theorem fetch_of_step_unknown {s : State} {w : Word} (h : step s = .fault (.unknownInstruction w)) :
    s.fetch = .ok w := by
  obtain hfetch | ⟨v, d, hfetch, hdecode, hraised⟩ | ⟨v, i, -, -, hexec⟩ := step_fault_iff.1 h
  · obtain hpc | hpc := State.fetch_error_cases hfetch
    · cases hpc
    · cases hpc
  · rw [faultOfDecodeError_of_decode_error hdecode] at hraised
    cases hraised
    exact hfetch
  · obtain ⟨a, -, ⟨-, hraised⟩ | ⟨-, -, hraised⟩⟩ := exec_fault_iff.1 hexec
    · cases hraised
    · cases hraised

theorem runErrorResult_of_not_atSentinel {s : State} {e : Fault} (hs : ¬s.AtSentinel) (h : step s = .fault e) :
    runErrorResult e s = .error e s := by
  cases e with
  | unknownInstruction w => exact if_neg fun hw => hs ⟨w, fetch_of_step_unknown h, hw⟩
  | _ => rfl

theorem runByStep_succ_of_atSentinel {s : State} (hc : s.cfg.valid) (hs : s.AtSentinel) (n : Nat) :
    runByStep (n + 1) s = .halted s := by
  obtain ⟨w, hfetch, hw⟩ := hs
  rw [runByStep, step_fault_of_sentinel hc hfetch hw]
  exact if_pos hw

theorem runByStep_succ_of_step_next {s t : State} (h : step s = .next t) (n : Nat) :
    runByStep (n + 1) s = runByStep n t := by
  rw [runByStep, h]

theorem runByStep_succ_of_step_fault {s : State} {e : Fault} (hs : ¬s.AtSentinel) (h : step s = .fault e) (n : Nat) :
    runByStep (n + 1) s = .error e s := by
  rw [runByStep, h]
  exact runErrorResult_of_not_atSentinel hs h

end Sys2Proof.Machine
end

section
/-! The statements about the run mode and the sentinel (44_sequencer.md R145 to R149, 70_reset_and_hazards.md R195). -/

namespace Sys2Proof

open Sys2Proof.Machine

/-- Settles O23: the sentinel's word has the opcode 0x00, at which the run mode stops and which the decoder refuses. -/
theorem sentinelEndsARunInPlace : Obligations.SentinelEndsARunInPlace := by
  refine fun s ignored => ⟨rfl, fun hc hfetch => ?_⟩
  have hw := isSentinelWord_encode hc (.halt ignored)
  exact ⟨runFor_succ_of_atSentinel ⟨_, hfetch, hw⟩, step_fault_of_sentinel hc hfetch hw⟩

/-- Settles O45: by induction on the fuel, round by round. -/
theorem runFormulationsAgree : Obligations.RunFormulationsAgree := by
  intro n
  induction n with
  | zero => exact fun _ _ => rfl
  | succ n ih =>
    intro s hc
    obtain hs | ⟨hs, ⟨t, hnext⟩ | ⟨e, hfault⟩⟩ := round_cases s
    · rw [runFor_succ_of_atSentinel hs, runByStep_succ_of_atSentinel hc hs]
    · rw [runFor_succ_of_step_next hs hnext, runByStep_succ_of_step_next hnext, ih t (step_next_cfg hnext ▸ hc)]
    · rw [runFor_succ_of_step_fault hs hfault, runByStep_succ_of_step_fault hs hfault]

/-- Settles O47: the round that halts is at the sentinel, whose word the decoder refuses. -/
theorem aHaltedRunStandsAtTheSentinel : Obligations.AHaltedRunStandsAtTheSentinel := by
  intro s t hhalts
  obtain ⟨hsteps, w, hfetch, hw⟩ := hhalts.steps_atSentinel
  exact ⟨hsteps, w, hfetch, beq_iff_eq.1 hw, fun hc => step_fault_of_sentinel (hsteps.cfg_eq ▸ hc) hfetch hw⟩

/-- Settles O48: a run that does not go on for ever has ended with some fuel, and all ended runs agree. -/
theorem aRunEndsInExactlyOneWay : Obligations.ARunEndsInExactlyOneWay := by
  intro s
  refine ⟨?_, ?_, ?_, ?_, ?_, ?_⟩
  · by_cases hforever : RunsForever s
    · exact .inr (.inr hforever)
    · obtain ⟨n, hn⟩ := not_forall.1 hforever
      cases hrun : runFor n s with
      | halted t => exact .inl ⟨t, n, hrun⟩
      | error e t => exact .inr (.inl ⟨e, t, n, hrun⟩)
      | refused r t => exact absurd hrun (runFor_ne_refused n s r t)
      | noResult t => exact absurd ⟨t, hrun⟩ hn
  · rintro t u ⟨n, hn⟩ ⟨m, hm⟩
    exact RunResult.halted.inj (runFor_unique hn hm nofun nofun)
  · rintro e t e' u ⟨n, hn⟩ ⟨m, hm⟩
    exact RunResult.error.inj (runFor_unique hn hm nofun nofun)
  · rintro t e u ⟨⟨n, hn⟩, ⟨m, hm⟩⟩
    exact nomatch runFor_unique hn hm nofun nofun
  · rintro t ⟨⟨n, hn⟩, hforever⟩
    exact hforever.not_ended hn nofun
  · rintro e t ⟨⟨n, hn⟩, hforever⟩
    exact hforever.not_ended hn nofun

/-- Settles O49: the round that ended the run ends it again. -/
theorem anEndedRunRepeatsItsOutcome : Obligations.AnEndedRunRepeatsItsOutcome := by
  have again {s : State} {r : RunResult} (hrun : ∃ n, runFor n s = r) (hr : r.Ended) (m : Nat) :
      runFor (m + 1) r.final = r := by
    obtain ⟨n, rfl⟩ := hrun
    exact runFor_final_of_ended hr m
  exact ⟨fun _ _ hhalts => again hhalts nofun, fun _ _ _ hfails => again hfails nofun⟩

/-- Settles O50: a failing run stands before a failing step that is not at the sentinel, and a run gets to every such
step. -/
theorem aSafeRunMeetsNoFailingStep : Obligations.ASafeRunMeetsNoFailingStep := by
  intro s hc
  constructor
  · intro hsafe t hsteps
    obtain hs | ⟨hs, hnext | ⟨e, hfault⟩⟩ := round_cases t
    · exact .inr hs
    · exact .inl hnext
    · exact absurd (failsIn_of_steps hc hsteps hs hfault) (hsafe e t)
  · intro hreached e t hfails
    have hrepeat : runFor 1 t = .error e t := anEndedRunRepeatsItsOutcome.2 s t e hfails 0
    obtain ⟨hsteps, hfault, -⟩ := aFailedRunStopsBeforeTheFailingStep s t e hfails
    obtain ⟨u, hnext⟩ | hs := hreached t hsteps
    · cases hnext.symm.trans hfault
    · cases (runFor_succ_of_atSentinel hs 0).symm.trans hrepeat

/-- Settles O51: the target is the pc itself, so every round leaves the state as it is. -/
theorem aBranchToItselfRunsForever : Obligations.ABranchToItselfRunsForever := by
  intro s rs1 rs2 hc hdecoded htaken
  obtain ⟨w, hfetch, hdecode⟩ := State.fetchDecode_ok_iff.1 hdecoded
  have hstep : step s = .next s := by
    have htarget : branchTarget s 0#13 = s.pc := BitVec.add_zero s.pc
    rw [step_of_decode_ok hfetch hdecode, exec_beq_of_eq htaken, htarget]
    rfl
  refine ⟨hstep, fun n => ⟨s, ?_⟩⟩
  induction n with
  | zero => rfl
  | succ n ih => rw [runFor_succ_of_step_next (State.not_atSentinel_of_step_next hc hstep) hstep, ih]

end Sys2Proof
end

section
/-! SUPPORT. The selectors that stand for no register (10_state.md R26, D18). -/

namespace Sys2Proof.Machine

theorem resolveRegister_index_eq_none_iff {i : Nat} : resolveRegister (.index i) = none ↔ 31 < i := by
  simp only [resolveRegister, ite_eq_right_iff, reduceCtorEq, imp_false]
  omega

theorem resolveRegister_name_eq_none_iff {n : String} : resolveRegister (.name n) = none ↔ n ∉ registerNames := by
  simp only [resolveRegister, Option.map_eq_none_iff, List.findIdx?_eq_none_iff, beq_eq_false_iff_ne]
  exact ⟨fun h hn => h n hn rfl, fun h m hm heq => h (heq ▸ hm)⟩

theorem State.getRegister_of_not_resolve {s : State} {sel : RegSelector} (h : resolveRegister sel = none) :
    s.getRegister sel = .error (.registerNotFound sel) := by rw [State.getRegister, h]

theorem State.setRegister_of_not_resolve {s : State} {sel : RegSelector} {v : Word} (h : resolveRegister sel = none) :
    s.setRegister sel v = .error (.registerNotFound sel) := by rw [State.setRegister, h]

/-- A written register reads as the value, and register 0 as 0. -/
theorem State.readReg_writeReg_same (s : State) (r : RegIdx) (v : Word) :
    (s.writeReg r v).readReg r = if r = 0#5 then 0#32 else v := by
  split
  case isTrue hzero => subst hzero; rfl
  case isFalse hne => exact State.readReg_writeReg_self s r v hne

end Sys2Proof.Machine
end

section
/-! The statement about the host's register access (10_state.md section 5). -/

namespace Sys2Proof

open Sys2Proof.Machine

/-- Settles O11: both commands go through the register that the selector stands for, or fail for want of one. -/
theorem hostRegisterAccessFollowsItsLaws : Obligations.HostRegisterAccessFollowsItsLaws := by
  refine fun s sel v => ⟨fun r hr => ?_, fun hnone => ?_, ?_, ?_⟩
  · refine ⟨State.getRegister_of_resolve hr, s.writeReg r v, State.setRegister_of_resolve hr, ?_,
      fun q hq => State.readReg_writeReg_ne s r q v hq, fun a => by rw [State.writeReg_mem],
      State.writeReg_pc s r v, State.writeReg_cfg s r v⟩
    rw [State.getRegister_of_resolve hr, State.readReg_writeReg_same]
  · exact ⟨State.getRegister_of_not_resolve hnone, State.setRegister_of_not_resolve hnone⟩
  · rintro n rfl
    exact resolveRegister_index_eq_none_iff
  · rintro n rfl
    exact resolveRegister_name_eq_none_iff

end Sys2Proof
end
